-- ==== Sys2Proof/Word.lean ====
section
/-! DEFINITION. The byte, the two buffer memories' names and the line level: the plainest words of the spec. -/

namespace Sys2Proof

/-- 00_scope.md R7: a byte is 8 bits, unsigned, bit 0 least significant. -/
abbrev Byte := BitVec 8

/-- 20_memory.md R50: the block reaches two byte-addressed memories, and only these. -/
inductive Space where
  /-- `out_mem`, the output (transmit) buffer. -/
  | out
  /-- `in_mem`, the input (receive) buffer. -/
  | inp
  deriving DecidableEq, Repr

/-- 00_scope.md R9: line levels are bits, low is 0 and high is 1. -/
inductive Level where
  | low
  | high
  deriving DecidableEq, Repr

end Sys2Proof
end

