-- ==== Sys2Proof/Syntax.lean ====
section
/-! DEFINITION. The six commands of spec/opcode_table.json. -/

namespace Sys2Proof

/-- 30_encoding.md R70, R75: one command is one operation. -/
inductive Instr where
  /-- INIT (40_session.md R101). -/
  | init
  /-- WRITE_ENQUEUE with the message P[0], P[1], …; LEN is its length (30_encoding.md R78, 41_transmit.md R110). -/
  | writeEnqueue (p : List Byte)
  /-- WRITE_BUSY (41_transmit.md R117). -/
  | writeBusy
  /-- WRITE_ABORT (41_transmit.md R118). -/
  | writeAbort
  /-- WRITE_STEP (41_transmit.md R111). -/
  | writeStep
  /-- READ_SINK with the sampled line level b (42_receive.md R140). -/
  | readSink (b : Level)
  deriving DecidableEq, Repr

end Sys2Proof
end

