-- ==== Sys2Proof/Machine/Operands.lean ====
section
/-! DEFINITION. Operand assembly (30_encoding.md R71, R74, R78): the fields of the command byte, the LEN field,
the line level, and the bit-mask cursors' arithmetic (00_scope.md R7). -/

namespace Sys2Proof.Machine

/-- 30_encoding.md R71: OP = CMD[7:5]. -/
def opField (c : Byte) : BitVec 3 := c.extractLsb' 5 3

/-- 30_encoding.md R71: RSV = CMD[4:1]. -/
def rsvField (c : Byte) : BitVec 4 := c.extractLsb' 1 4

/-- 30_encoding.md R71: B = CMD[0]. -/
def bField (c : Byte) : BitVec 1 := c.extractLsb' 0 1

/-- 30_encoding.md R71: a command byte from its three fields. -/
def cmdByte (op : BitVec 3) (rsv : BitVec 4) (b : BitVec 1) : Byte := op ++ rsv ++ b

/-- 30_encoding.md R78: 0 means the line was sampled low and 1 means high. -/
def levelOfBit (b : BitVec 1) : Level := if b = 1#1 then .high else .low

/-- 00_scope.md R9: low is 0 and high is 1. -/
def bitOfLevel : Level → BitVec 1
  | .low => 0#1
  | .high => 1#1

/-- 30_encoding.md R74: LB = ceil(IDX_W / 8), the bytes of the LEN field. -/
def lenBytes (idxW : Nat) : Nat := (idxW + 7) / 8

/-- The number that bytes, low byte first, stand for (30_encoding.md R74). -/
def leValue : List Byte → Nat
  | [] => 0
  | b :: r => b.toNat + 256 * leValue r

/-- `n` bytes, low byte first, of a number (30_encoding.md R74). -/
def leBytes : Nat → Nat → List Byte
  | 0, _ => []
  | n + 1, v => BitVec.ofNat 8 v :: leBytes n (v / 256)

/-- A bit-mask cursor's position 0, the first position (00_scope.md R7). -/
def firstMask : Byte := 0x01

/-- A bit-mask cursor's position 7. -/
def lastMask : Byte := 0x80

/-- 00_scope.md R7: a left shift drops bits above bit 7. -/
def shiftMask (m : Byte) : Byte := m <<< 1

/-- 00_scope.md R7: `rotl8(m)` is `((m << 1) | (m >> 7)) & 0xFF`. -/
def rotl8 (m : Byte) : Byte := (m <<< 1) ||| (m >>> 7)

/-- 41_transmit.md R114: the level of the data bit at the cursor, High if `(byte & mask) ≠ 0`. -/
def dataLevel (byte mask : Byte) : Level := if byte &&& mask = 0 then .low else .high

end Sys2Proof.Machine
end

