-- ==== Sys2Proof/Config.lean ====
section
/-! DEFINITION. The implementation parameters (00_scope.md R5) and their validity (40_session.md R100,
00_scope.md R6). -/

namespace Sys2Proof

/-- Which numbers code a value of CLOSURE's type: uninterpreted, because the type is a parameter of the model
(00_scope.md R5). -/
opaque Config.isClosure : Nat → Bool

/-- 00_scope.md R5: CLOSURE, "opaque value of a type the model takes as a parameter". Config.isClosure is that
parameter: the type's values are coded by numbers, so that states can be compared and written out, and which numbers
are codes stays unknown. Code 0 is always one, since a block has a CLOSURE. DESIGN CHOICE, safe (log 6). -/
structure Closure where
  code : Nat
  coded : code = 0 ∨ Config.isClosure code = true
  deriving DecidableEq, Repr

/-- The one value of the closure type that is known to exist. -/
def Config.someClosure : Closure := ⟨0, Or.inl rfl⟩

/-- 00_scope.md R5: the parameters fixed when the block is instantiated. They stand in State, and no step changes
them (10_state.md R29), so a statement over all states is one over all configurations (log 5). -/
structure Config where
  /-- IN_PRESENT: an input (receive) buffer is supplied. -/
  inPresent : Bool
  /-- IN_CAP: declared capacity of the input buffer in bytes. -/
  inCap : Nat
  /-- OUT_PRESENT: an output (transmit) buffer is supplied. -/
  outPresent : Bool
  /-- OUT_CAP: declared capacity of the output buffer in bytes. -/
  outCap : Nat
  /-- CB_PRESENT: a completion callback is supplied. -/
  cbPresent : Bool
  /-- CLOSURE: passed with every completion event. -/
  closure : Closure
  /-- IDX_W: width in bits of the byte-index and length registers. -/
  idxW : Nat
  deriving DecidableEq, Repr

/-- 40_session.md R100: valid unless a buffer is absent while its declared size is nonzero. -/
def Config.buffersValid (c : Config) : Bool :=
  !(!c.inPresent && c.inCap != 0) && !(!c.outPresent && c.outCap != 0)

/-- 00_scope.md R6: IDX_W holds every value a byte index or length takes, `2^IDX_W - 1 ≥ max(IN_CAP, OUT_CAP)`. -/
def Config.idxFits (c : Config) : Bool :=
  decide (max c.inCap c.outCap ≤ 2 ^ c.idxW - 1)

/-- A block exists only for a configuration that meets 40_session.md R100 and 00_scope.md R6 (log 13). -/
def Config.valid (c : Config) : Bool :=
  c.buffersValid && c.idxFits

/-- The capacity of a buffer memory: 20_memory.md R56, CAP(OUT) = OUT_CAP and CAP(IN) = IN_CAP. -/
def Config.cap (c : Config) : Space → Nat
  | .out => c.outCap
  | .inp => c.inCap

/-- The configuration of the one state the interface calls reset: 95_test_vectors.md program P1 with IDX_W = 8.
DESIGN CHOICE, unsafe for a statement about that one state only (log 5): the spec leaves every parameter open. -/
def Config.example1 : Config :=
  { inPresent := true, inCap := 4, outPresent := true, outCap := 4, cbPresent := true,
    closure := Config.someClosure, idxW := 8 }

end Sys2Proof
end

