-- ==== Sys2Proof/WellFormed.lean ====
section
/-! DEFINITION. Which commands have an encoding. -/

namespace Sys2Proof

/-- 30_encoding.md R74, R78: LEN is unsigned and `IDX_W` bits wide, so a message longer than that has no encoding.
Every other command has one. -/
def Instr.wf (idxW : Nat) : Instr → Bool
  | .init => true
  | .writeEnqueue p => decide (p.length < 2 ^ idxW)
  | .writeBusy => true
  | .writeAbort => true
  | .writeStep => true
  | .readSink _ => true

end Sys2Proof
end

