-- ==== Sys2Proof/Decode.lean ====
section
/-! DEFINITION. The decoder, total on any bytes (30_encoding.md R76), the encoder written from the same tables, and
the host's view of the decoder. -/

namespace Sys2Proof

open Sys2Proof.Machine

/-- The operation select field's six values (30_encoding.md R75). -/
inductive Op where
  | init
  | writeEnqueue
  | writeBusy
  | writeAbort
  | writeStep
  | readSink
  deriving DecidableEq, Repr

/-- Why a command is illegal (30_encoding.md R77). -/
inductive Illegal where
  /-- OP = 000 or OP = 111. -/
  | reservedOp
  /-- RSV ≠ 0b0000. -/
  | reservedBits
  /-- B = 1 with OP ≠ 110. -/
  | strayBit
  /-- In format E, a LEN whose bits above IDX_W-1 are not all 0. -/
  | wideLen
  deriving DecidableEq, Repr

/-- What the decoder reads from the front of a command stream. -/
inductive Decoded where
  /-- One command, and the bytes after it. -/
  | ok (i : Instr) (rest : List Byte)
  /-- The command is one 30_encoding.md R77 calls illegal. -/
  | illegal (why : Illegal)
  /-- The bytes end before the command does (log 11). -/
  | truncated
  deriving DecidableEq, Repr

/-- 30_encoding.md R75: OP selects the operation; 000 and 111 are reserved. -/
def opOfField (op : BitVec 3) : Option Op :=
  match op.toNat with
  | 1 => some .init
  | 2 => some .writeEnqueue
  | 3 => some .writeBusy
  | 4 => some .writeAbort
  | 5 => some .writeStep
  | 6 => some .readSink
  | _ => none

/-- 30_encoding.md R75: the OP value of each operation. -/
def fieldOfOp : Op → BitVec 3
  | .init => 0b001#3
  | .writeEnqueue => 0b010#3
  | .writeBusy => 0b011#3
  | .writeAbort => 0b100#3
  | .writeStep => 0b101#3
  | .readSink => 0b110#3

/-- Format E after its command byte (30_encoding.md R74): LEN in LB bytes, low byte first, then LEN payload bytes. -/
def decodeEnqueue (idxW : Nat) (r : List Byte) : Decoded :=
  if r.length < lenBytes idxW then .truncated
  else if 2 ^ idxW ≤ leValue (r.take (lenBytes idxW)) then .illegal .wideLen
  else if (r.drop (lenBytes idxW)).length < leValue (r.take (lenBytes idxW)) then .truncated
  else .ok (.writeEnqueue ((r.drop (lenBytes idxW)).take (leValue (r.take (lenBytes idxW)))))
    ((r.drop (lenBytes idxW)).drop (leValue (r.take (lenBytes idxW))))

/-- The operation's operands (30_encoding.md R72 to R74, R78), once its command byte has passed R76's checks. -/
def decodeOperands (idxW : Nat) (op : Op) (c : Byte) (r : List Byte) : Decoded :=
  match op with
  | .init => .ok .init r
  | .writeEnqueue => decodeEnqueue idxW r
  | .writeBusy => .ok .writeBusy r
  | .writeAbort => .ok .writeAbort r
  | .writeStep => .ok .writeStep r
  | .readSink => .ok (.readSink (levelOfBit (bField c))) r

/-- 30_encoding.md R76: select by OP alone, then check RSV, and B for every OP but 110. -/
def decode (idxW : Nat) : List Byte → Decoded
  | [] => .truncated
  | c :: r =>
    match opOfField (opField c) with
    | none => .illegal .reservedOp
    | some op =>
      if rsvField c ≠ 0#4 then .illegal .reservedBits
      else if op ≠ .readSink ∧ bField c = 1#1 then .illegal .strayBit
      else decodeOperands idxW op c r

/-- 30_encoding.md R72 to R75: the bytes of a command. -/
def encode (idxW : Nat) : Instr → List Byte
  | .init => [cmdByte (fieldOfOp .init) 0#4 0#1]
  | .writeEnqueue p => cmdByte (fieldOfOp .writeEnqueue) 0#4 0#1 :: (leBytes (lenBytes idxW) p.length ++ p)
  | .writeBusy => [cmdByte (fieldOfOp .writeBusy) 0#4 0#1]
  | .writeAbort => [cmdByte (fieldOfOp .writeAbort) 0#4 0#1]
  | .writeStep => [cmdByte (fieldOfOp .writeStep) 0#4 0#1]
  | .readSink b => [cmdByte (fieldOfOp .readSink) 0#4 (bitOfLevel b)]

/-- 30_encoding.md R72 to R74, R76: how many bytes a command takes, 1 or `1 + LB + LEN`. -/
def encodedLength (idxW : Nat) : Instr → Nat
  | .init => 1
  | .writeEnqueue p => 1 + lenBytes idxW + p.length
  | .writeBusy => 1
  | .writeAbort => 1
  | .writeStep => 1
  | .readSink _ => 1

/-- The bytes of a word whose bit 0 is the least significant bit of the first byte. -/
def bytesOfWord : Nat → Nat → List Byte
  | 0, _ => []
  | n + 1, w => BitVec.ofNat 8 w :: bytesOfWord n (w / 256)

/-- How long a command is whose given first bytes are followed by zeros (30_encoding.md R76). -/
def zeroPaddedLength (idxW : Nat) (given : List Byte) : Nat :=
  match given with
  | [] => 1
  | c :: r =>
    if opOfField (opField c) = some .writeEnqueue then 1 + lenBytes idxW + leValue (r.take (lenBytes idxW)) else 1

/-- The bytes of a command given by `nbits` bits of a word, every bit above them 0. -/
def tableBytes (idxW nbits w : Nat) : List Byte :=
  let given := bytesOfWord (nbits / 8) w
  given ++ List.replicate (zeroPaddedLength idxW given - given.length) 0#8

/-- The command the decoder reads from a word of spec/opcode_table.json, at the IDX_W of State.reset (log 5). -/
def decodeTableWord (nbits w : Nat) : Option Instr :=
  match decode Config.example1.idxW (tableBytes Config.example1.idxW nbits w) with
  | .ok i _ => some i
  | .illegal _ => none
  | .truncated => none

end Sys2Proof
end

