-- ==== Sys2Proof/Machine/State.lean ====
section
/-! DEFINITION. The state (10_state.md R20), the reasons a step stops, and the state after reset
(70_reset_and_hazards.md R250). -/

namespace Sys2Proof.Machine

/-- 10_state.md R21: `Done` (idle/inactive), `StartBit`, `Bits`, `StopBit`; each engine has its own. -/
inductive Mode where
  | done
  | startBit
  | bits
  | stopBit
  deriving DecidableEq, Repr

/-- The transmit engine's registers (10_state.md R22 to R25). Idx is a natural number, which 00_scope.md R6 allows
(log 7). -/
structure TxState where
  /-- `out.mode` (R22). -/
  mode : Mode
  /-- `out.i`, the byte index (R23). -/
  i : Nat
  /-- `out.mask`, the bit-mask cursor (R24). -/
  mask : Byte
  /-- `out.len`, the length of the enqueued message (R25). -/
  len : Nat
  deriving DecidableEq, Repr

/-- The receive engine's registers (10_state.md R26 to R28). -/
structure RxState where
  /-- `in.mode` (R26). -/
  mode : Mode
  /-- `in.i`, the byte index (R27). -/
  i : Nat
  /-- `in.mask`, the bit-mask cursor (R28). -/
  mask : Byte
  deriving DecidableEq, Repr

/-- 10_state.md R30: one completion event. -/
structure MsgEvent where
  closure : Closure
  count : Nat
  deriving DecidableEq, Repr

/-- 60_exceptions.md R208: the model faults that the block records. -/
inductive FaultKind where
  /-- WRITE_STEP in `Bits` with `out.i ≥ out.len` (41_transmit.md R116). -/
  | txEmptyMessage
  /-- A memory access at or past the capacity (20_memory.md R56). -/
  | memRange
  deriving DecidableEq, Repr

/-- 30_encoding.md R80: one response. -/
structure Response where
  /-- CODE, the operation's result (R81). -/
  code : BitVec 4
  /-- COUNT, the received byte count of GotMessage, and 0 otherwise (R82). -/
  count : Nat
  deriving DecidableEq, Repr

/-- What the host does next (60_exceptions.md R222): one byte of the command stream, or one access to a buffer
memory between commands (20_memory.md R58). -/
inductive HostMove where
  /-- One byte of a command (30_encoding.md R70). -/
  | byte (b : Byte)
  /-- The host writes one byte of a buffer memory. -/
  | write (sp : Space) (a : Nat) (v : Byte)
  /-- The host reads one byte of a buffer memory. -/
  | read (sp : Space) (a : Nat)
  deriving DecidableEq, Repr

/-- What one host read returned (20_memory.md R58). -/
structure HostRead where
  space : Space
  addr : Nat
  value : Byte
  deriving DecidableEq, Repr

/-- A buffer memory: address and byte pairs in the canonical form of Memory.wf (Machine/Memory.lean). -/
abbrev Memory := List Host.Cell

/-- 10_state.md R20, with the configuration (R29) and the model's own four last fields: the host's pending moves and
its position in the command stream (R34, log 1), and what the host has been given (logs 3 and 4). -/
structure State where
  /-- The configuration, which no step changes (R29). -/
  cfg : Config
  /-- The transmit engine (R22 to R25). -/
  out : TxState
  /-- The receive engine, the spec's `in` (R26 to R28). -/
  inp : RxState
  /-- `out_mem` (20_memory.md R50). -/
  outMem : Memory
  /-- `in_mem` (20_memory.md R50). -/
  inMem : Memory
  /-- The completion events, oldest first (R30). -/
  events : List MsgEvent
  /-- The sticky model-fault record (R31). -/
  fault : Option FaultKind
  /-- The responses given, oldest first (30_encoding.md R80). -/
  responses : List Response
  /-- What the host's reads returned, oldest first (20_memory.md R58). -/
  reads : List HostRead
  /-- The host's moves not yet made, next first (20_memory.md R61). -/
  host : List HostMove
  /-- The command bytes taken so far: the position of the next command in the command stream (R34). -/
  pos : Nat
  deriving DecidableEq, Repr

/-- Why a step stops the machine. -/
inductive Fault where
  /-- Raised by every command's operation, by an idle step, and in place of decoding (log 22), once a model fault of kind `k` is recorded: "once
  `fault ≠ none`, no further command has a step" (60_exceptions.md R208). Safe: the model stops where the original
  goes on (log 9). -/
  | quiescent (k : FaultKind)
  deriving DecidableEq, Repr

/-- Why a step has no meaning. -/
inductive Refusal where
  /-- An arm of exec that has no meaning yet; no arm is left so. Safe. -/
  | notModelled (mnemonic : String)
  /-- Raised by step: the command at position `pos` of the command stream is illegal (30_encoding.md R77,
  60_exceptions.md R209). Safe (log 12). -/
  | illegalCommand (why : Illegal) (pos : Nat)
  /-- Raised by step: the host's bytes end, or a memory access stands, before the command at position `pos` is
  complete. Safe (log 11). -/
  | truncatedCommand (pos : Nat)
  /-- Raised by step and by every command's operation: the configuration is invalid, so no block exists
  (40_session.md R100, 60_exceptions.md R207). Safe (log 13). -/
  | invalidConfig
  /-- Raised by step: the host names an address that is no byte of the buffer (20_memory.md R50, R58). Safe
  (log 10). -/
  | hostAddress (sp : Space) (a : Nat)
  deriving DecidableEq, Repr

/-- The transmit registers after power-on reset (70_reset_and_hazards.md R250). -/
def TxState.reset : TxState := { mode := .done, i := 0, mask := 0x01, len := 0 }

/-- The receive registers after power-on reset (70_reset_and_hazards.md R250). -/
def RxState.reset : RxState := { mode := .done, i := 0, mask := 0x01 }

/-- 70_reset_and_hazards.md R250: power-on reset of a block with a given configuration and whatever the host put in
the two buffers; the host's moves are still to come. -/
def State.powerOn (cfg : Config) (outMem inMem : Memory) (host : List HostMove) : State :=
  { cfg := cfg, out := TxState.reset, inp := RxState.reset, outMem := outMem, inMem := inMem, events := [],
    fault := none, responses := [], reads := [], host := host, pos := 0 }

/-- The machine right after reset, for the one configuration of log 5 and with no host move pending. Its memories
list nothing (log 8). -/
def State.reset : State := State.powerOn Config.example1 [] [] []

end Sys2Proof.Machine
end

