-- ==== Sys2Proof/Machine/Flags.lean ====
section
/-! DEFINITION. The one status flag (10_state.md R32), the mode field's encoding (R21) and the result codes
(30_encoding.md R81). -/

namespace Sys2Proof.Machine

/-- 10_state.md R32: `busy = (out.mode ≠ Done)`, computed and not stored. -/
def State.busy (s : State) : Bool := decide (s.out.mode ≠ .done)

/-- 10_state.md R21: a mode is a 2-bit field. -/
def Mode.code : Mode → BitVec 2
  | .done => 0b00#2
  | .startBit => 0b01#2
  | .bits => 0b10#2
  | .stopBit => 0b11#2

/-- WRITE_ENQUEUE's results, in the order 30_encoding.md R81 numbers them. -/
inductive EnqueueResult where
  | ok
  /-- Never returned (60_exceptions.md R206). -/
  | errorNull
  | errorTooLarge
  | errorBusy
  deriving DecidableEq, Repr

/-- WRITE_STEP's results (30_encoding.md R81). -/
inductive StepResult where
  | low
  | high
  /-- Never returned (60_exceptions.md R206). -/
  | errorNull
  deriving DecidableEq, Repr

/-- READ_SINK's results (30_encoding.md R81). -/
inductive SinkResult where
  | ok
  | gotMessage
  /-- Never returned (60_exceptions.md R206). -/
  | errorNull
  | errorBufferFull
  | errorBadMessage
  deriving DecidableEq, Repr

/-- 30_encoding.md R81. -/
def EnqueueResult.code : EnqueueResult → BitVec 4
  | .ok => 0#4
  | .errorNull => 1#4
  | .errorTooLarge => 2#4
  | .errorBusy => 3#4

/-- 30_encoding.md R81. -/
def StepResult.code : StepResult → BitVec 4
  | .low => 0#4
  | .high => 1#4
  | .errorNull => 2#4

/-- 30_encoding.md R81. -/
def SinkResult.code : SinkResult → BitVec 4
  | .ok => 0#4
  | .gotMessage => 1#4
  | .errorNull => 2#4
  | .errorBufferFull => 3#4
  | .errorBadMessage => 4#4

/-- 30_encoding.md R81: `false` is 0 and `true` is 1, for WRITE_BUSY, WRITE_ABORT and INIT. -/
def boolCode : Bool → BitVec 4
  | false => 0#4
  | true => 1#4

/-- 30_encoding.md R81: for WRITE_STEP, CODE is the line level itself. -/
def resultOfLevel : Level → StepResult
  | .low => .low
  | .high => .high

end Sys2Proof.Machine
end

