-- ==== Sys2Proof/Machine/Memory.lean ====
section
/-! DEFINITION. A buffer memory's reads and writes (20_memory.md R55) over its canonical list of cells. -/

namespace Sys2Proof.Machine

/-- What an unlisted address reads as. DESIGN CHOICE (log 8): the spec leaves the contents at power-on open, and
State.powerOn takes any. -/
def unlistedByte : Byte := 0x00

/-- A read returns the byte last written at that address (20_memory.md R55). -/
def Memory.read : Memory → Nat → Byte
  | [], _ => unlistedByte
  | (x, v) :: r, a => if x = a then v else Memory.read r a

/-- A write stores its byte and has no other effect (20_memory.md R55). It keeps the canonical form: a byte equal to
what an unlisted address reads as is not listed. -/
def Memory.write : Memory → Nat → Byte → Memory
  | [], a, v => if v = unlistedByte then [] else [(a, v)]
  | (x, w) :: r, a, v =>
    if a < x then (if v = unlistedByte then (x, w) :: r else (a, v) :: (x, w) :: r)
    else if a = x then (if v = unlistedByte then r else (a, v) :: r)
    else (x, w) :: Memory.write r a v

/-- Addresses strictly rising from at least `lo`, and no entry equal to what an unlisted address reads as. -/
def Memory.wfFrom (lo : Nat) : Memory → Bool
  | [] => true
  | (x, v) :: r => decide (lo ≤ x) && decide (v ≠ unlistedByte) && Memory.wfFrom (x + 1) r

/-- The canonical form. -/
def Memory.wf (m : Memory) : Bool := Memory.wfFrom 0 m

/-- Every listed address is below `cap` (20_memory.md R50: addresses 0 … cap-1). -/
def Memory.within (cap : Nat) (m : Memory) : Bool := m.all (fun c => decide (c.1 < cap))

end Sys2Proof.Machine
end

