-- ==== Sys2Proof/Machine/Ops.lean ====
section
/-! DEFINITION. The pseudocode primitives of 00_scope.md R8 as named operations: register writes, memory accesses
with their range check, the response, the completion event, raising a model fault, and the guard every operation
runs under. -/

namespace Sys2Proof.Machine

/-- The outcome of one operation. -/
abbrev Result := Host.Outcome State Fault Refusal

/-- Write the transmit engine's registers. -/
def State.setOut (s : State) (r : TxState) : State := { s with out := r }

/-- Write the receive engine's registers. -/
def State.setInp (s : State) (r : RxState) : State := { s with inp := r }

/-- A buffer memory. -/
def State.mem (s : State) : Space → Memory
  | .out => s.outMem
  | .inp => s.inMem

/-- Replace a buffer memory. -/
def State.setMem (s : State) (sp : Space) (m : Memory) : State :=
  match sp with
  | .out => { s with outMem := m }
  | .inp => { s with inMem := m }

/-- `respond(field = value, …)` (00_scope.md R8, 30_encoding.md R80). -/
def State.respond (s : State) (code : BitVec 4) (count : Nat) : State :=
  { s with responses := s.responses ++ [{ code := code, count := count }] }

/-- `if CB_PRESENT: emit MsgEvent(CLOSURE, count)` (00_scope.md R8, 10_state.md R30, 60_exceptions.md R212). -/
def State.complete (s : State) (count : Nat) : State :=
  { s with events :=
      if s.cfg.cbPresent then s.events ++ [{ closure := s.cfg.closure, count := count }] else s.events }

/-- `raise Fault(k)` (60_exceptions.md R208): the record is set if it is `none`, and nothing else changes. The
operation ends here with no response. The block has no trap entry and no return (R200, R201), so this record is all
that raising does. -/
def State.raise (s : State) (k : FaultKind) : State :=
  { s with fault := match s.fault with | none => some k | some k' => some k' }

/-- `MemRead(S, a, 1)` (20_memory.md R56): the byte, or `none` where the access raises `MEM_RANGE`. -/
def State.memRead (s : State) (sp : Space) (a : Nat) : Option Byte :=
  if a < s.cfg.cap sp then some ((s.mem sp).read a) else none

/-- `MemWrite(S, a, 1, v)` (20_memory.md R56): the state after the write, or, where it is out of range, the state in
which the operation ends with `MEM_RANGE` raised and memory not touched. -/
def State.memWrite (s : State) (sp : Space) (a : Nat) (v : Byte) : Except State State :=
  if a < s.cfg.cap sp then .ok (s.setMem sp ((s.mem sp).write a v)) else .error (s.raise .memRange)

/-- Writes of consecutive bytes, one at a time in increasing order (20_memory.md R51, R54). A write that is out of
range ends the operation, and the writes before it are kept (60_exceptions.md R208). -/
def State.memWriteSeq (s : State) (sp : Space) (a : Nat) : List Byte → Except State State
  | [] => .ok s
  | v :: r =>
    match s.memWrite sp a v with
    | .error t => .error t
    | .ok t => t.memWriteSeq sp (a + 1) r

/-- READ_SINK's clear (42_receive.md R142): `in_mem[a] <- 0x00` for every `a` in `0 … IN_CAP-1`. -/
def State.clearIn (s : State) : Except State State :=
  s.memWriteSeq .inp 0 (List.replicate s.cfg.inCap 0x00)

/-- A block exists only for a valid configuration (40_session.md R100, 60_exceptions.md R207, log 13). -/
def withBlock (s : State) (r : Result) : Result :=
  if s.cfg.valid then r else .refused .invalidConfig

/-- Every command's operation runs on a block that exists and has recorded no model fault: "once `fault ≠ none`, no
further command has a step" (60_exceptions.md R208). -/
def operate (s : State) (r : Result) : Result :=
  withBlock s (match s.fault with
    | none => r
    | some k => .fault (.quiescent k))

end Sys2Proof.Machine
end

