-- ==== Sys2Proof/Machine/Receive.lean ====
section
/-! DEFINITION. The receive family (42_receive.md): READ_SINK. -/

namespace Sys2Proof.Machine

/-- `in.mode <- Done`. -/
def State.inpDone (s : State) : State := s.setInp { s.inp with mode := .done }

/-- `StartBitCase(b)`, the explicit sub-transition of 42_receive.md R140 (R143 to R146). -/
def startBitCase (b : Level) (s : State) : State :=
  match b with
  | .high =>
    if 1 ≤ s.inp.i then (s.complete s.inp.i).inpDone.respond SinkResult.gotMessage.code s.inp.i
    else s.respond SinkResult.ok.code 0
  | .low =>
    if s.cfg.inCap ≤ s.inp.i then s.inpDone.respond SinkResult.errorBufferFull.code 0
    else (s.setInp { s.inp with mask := firstMask, mode := .bits }).respond SinkResult.ok.code 0

/-- READ_SINK in `Done` with `b = 0` (42_receive.md R142): byte index to 0, clear the buffer, then
`StartBitCase(0)`. -/
def startFrame (s : State) : State :=
  match (s.setInp { s.inp with i := 0 }).clearIn with
  | .error t => t
  | .ok t => startBitCase .low t

/-- Steps 2 and 3 of 42_receive.md R147: the mask rotates; past the `0x80` position the stop bit follows. -/
def afterSample (r : RxState) : RxState :=
  { r with mask := rotl8 r.mask, mode := if r.mask = lastMask then .stopBit else r.mode }

/-- Step 1 of 42_receive.md R147: with `b = 1`, the mask bit is set in the current byte. -/
def orIntoByte (b : Level) (s : State) : Except State State :=
  match b with
  | .low => .ok s
  | .high =>
    match s.memRead .inp s.inp.i with
    | none => .error (s.raise .memRange)
    | some v => s.memWrite .inp s.inp.i (v ||| s.inp.mask)

/-- READ_SINK in `Bits` (42_receive.md R147). -/
def takeDataBit (b : Level) (s : State) : State :=
  match orIntoByte b s with
  | .error t => t
  | .ok t => (t.setInp (afterSample t.inp)).respond SinkResult.ok.code 0

/-- READ_SINK in `StopBit` (42_receive.md R148 and R149). -/
def takeStopBit (b : Level) (s : State) : State :=
  match b with
  | .high => (s.setInp { s.inp with i := s.inp.i + 1, mode := .startBit }).respond SinkResult.ok.code 0
  | .low => s.inpDone.respond SinkResult.errorBadMessage.code 0

/-- READ_SINK (42_receive.md R140): one sampled line bit, by mode. -/
def execReadSink (b : Level) (s : State) : Result :=
  operate s (
    match s.inp.mode, b with
    | .done, .high => .next (s.respond SinkResult.ok.code 0)
    | .done, .low => .next (startFrame s)
    | .startBit, b => .next (startBitCase b s)
    | .bits, b => .next (takeDataBit b s)
    | .stopBit, b => .next (takeStopBit b s))

end Sys2Proof.Machine
end

