-- ==== Sys2Proof/Machine/Session.lean ====
section
/-! DEFINITION. The session family (40_session.md): INIT. -/

namespace Sys2Proof.Machine

/-- INIT (40_session.md R101): both engines to their initial state; memories, events and the fault record are not
written. -/
def execInit (s : State) : Result :=
  operate s (.next (((s.setOut { mode := .done, i := 0, mask := firstMask, len := 0 }).setInp
    { mode := .done, i := 0, mask := firstMask }).respond (boolCode true) 0))

end Sys2Proof.Machine
end

