-- ==== Sys2Proof/Machine/Transmit.lean ====
section
/-! DEFINITION. The transmit family (41_transmit.md): WRITE_ENQUEUE, WRITE_STEP, WRITE_BUSY, WRITE_ABORT. -/

namespace Sys2Proof.Machine

/-- WRITE_ENQUEUE (41_transmit.md R110): busy first (R121), then too large, else copy in and start. -/
def execWriteEnqueue (p : List Byte) (s : State) : Result :=
  operate s (
    if s.out.mode ≠ .done then .next (s.respond EnqueueResult.errorBusy.code 0)
    else if s.cfg.outCap < p.length then .next (s.respond EnqueueResult.errorTooLarge.code 0)
    else
      match s.memWriteSeq .out 0 p with
      | .error t => .next t
      | .ok t =>
        .next ((t.setOut { mode := .startBit, i := 0, mask := firstMask, len := p.length }).respond
          EnqueueResult.ok.code 0))

/-- The registers after a data bit (41_transmit.md R114): past the `0x80` position the stop bit follows and the byte
index advances, the mask left alone; otherwise the mask shifts left. -/
def afterDataBit (r : TxState) : TxState :=
  if r.mask = lastMask then { r with mode := .stopBit, i := r.i + 1 } else { r with mask := shiftMask r.mask }

/-- The registers after a stop bit (41_transmit.md R115): the message is complete, the mask left alone, or the next
byte's start bit follows. -/
def afterStopBit (r : TxState) : TxState :=
  if r.i = r.len then { r with mode := .done } else { r with mask := firstMask, mode := .startBit }

/-- WRITE_STEP in `Bits` (41_transmit.md R114), after the empty-message check of R116. -/
def sendDataBit (s : State) : State :=
  if s.out.len ≤ s.out.i then s.raise .txEmptyMessage
  else
    match s.memRead .out s.out.i with
    | none => s.raise .memRange
    | some byte => (s.setOut (afterDataBit s.out)).respond (resultOfLevel (dataLevel byte s.out.mask)).code 0

/-- WRITE_STEP (41_transmit.md R111): the level of one bit interval, by mode (R112 to R115). -/
def execWriteStep (s : State) : Result :=
  operate s (
    match s.out.mode with
    | .done => .next (s.respond StepResult.high.code 0)
    | .startBit => .next ((s.setOut { s.out with mode := .bits }).respond StepResult.low.code 0)
    | .bits => .next (sendDataBit s)
    | .stopBit => .next ((s.setOut (afterStopBit s.out)).respond StepResult.high.code 0))

/-- WRITE_BUSY (41_transmit.md R117): the busy flag; no state changes. -/
def execWriteBusy (s : State) : Result :=
  operate s (.next (s.respond (boolCode s.busy) 0))

/-- WRITE_ABORT (41_transmit.md R118): the mode to `Done`; the cursors, the length and the buffer are not written
(log 16). -/
def execWriteAbort (s : State) : Result :=
  operate s (.next ((s.setOut { s.out with mode := .done }).respond (boolCode true) 0))

end Sys2Proof.Machine
end

