-- ==== Sys2Proof/Machine/Dispatch.lean ====
section
/-! DEFINITION. One arm per command (30_encoding.md R75). -/

namespace Sys2Proof.Machine

/-- One command is one operation (30_encoding.md R70). -/
def exec (i : Instr) (s : State) : Host.Outcome State Fault Refusal :=
  match i with
  | .init => Sys2Proof.Machine.execInit s
  | .writeEnqueue p => Sys2Proof.Machine.execWriteEnqueue p s
  | .writeBusy => Sys2Proof.Machine.execWriteBusy s
  | .writeAbort => Sys2Proof.Machine.execWriteAbort s
  | .writeStep => Sys2Proof.Machine.execWriteStep s
  | .readSink b => Sys2Proof.Machine.execReadSink b s

end Sys2Proof.Machine
end

