-- ==== Sys2Proof/Machine/Fetch.lean ====
section
/-! DEFINITION. Taking the host's next move (60_exceptions.md R222, 20_memory.md R61): the bytes of the next command,
and the host's own accesses to the buffer memories. -/

namespace Sys2Proof.Machine

/-- The command bytes before the host's next memory access. A command is atomic, so all its bytes are among them
(20_memory.md R54, log 11). -/
def leadingBytes : List HostMove → List Byte
  | .byte b :: r => b :: leadingBytes r
  | _ => []

/-- The command at the front of the host's moves (30_encoding.md R76). -/
def State.fetch (s : State) : Decoded := decode s.cfg.idxW (leadingBytes s.host)

/-- Take `n` command bytes from the host. -/
def State.consume (s : State) (n : Nat) : State := { s with host := s.host.drop n, pos := s.pos + n }

/-- The command at the front of the host's moves is taken and run as one operation (30_encoding.md R70), or refused
(60_exceptions.md R209). DESIGN CHOICE (log 22): once a model fault is recorded the bytes are not decoded, and an
illegal or unfinished command stops as Fault.quiescent like any other. -/
def stepCommand (s : State) : Result :=
  operate s (
    match s.fetch with
    | .ok i _ => exec i (s.consume (encodedLength s.cfg.idxW i))
    | .illegal why => .refused (.illegalCommand why s.pos)
    | .truncated => .refused (.truncatedCommand s.pos))

/-- The host's write of one byte (20_memory.md R58); `rest` are the moves after it. It still applies, or is refused,
once a model fault is recorded (logs 9 and 22). -/
def hostWrite (sp : Space) (a : Nat) (v : Byte) (rest : List HostMove) (s : State) : Result :=
  withBlock s (
    if a < s.cfg.cap sp then .next { s.setMem sp ((s.mem sp).write a v) with host := rest }
    else .refused (.hostAddress sp a))

/-- The host's read of one byte (20_memory.md R55, R58); what it returned is recorded (log 4). It still applies, or is
refused, once a model fault is recorded (logs 9 and 22). -/
def hostRead (sp : Space) (a : Nat) (rest : List HostMove) (s : State) : Result :=
  withBlock s (
    if a < s.cfg.cap sp then
      .next { s with reads := s.reads ++ [{ space := sp, addr := a, value := (s.mem sp).read a }], host := rest }
    else .refused (.hostAddress sp a))

/-- No move is pending: the block does nothing and keeps all its state (60_exceptions.md R218, log 2). -/
def idle (s : State) : Result := operate s (.next s)

end Sys2Proof.Machine
end

