-- ==== Sys2Proof/Machine/Step.lean ====
section
/-! DEFINITION. One step: the host's next move is made (20_memory.md R61). -/

namespace Sys2Proof.Machine

/-- The host's next move: a command, an access to a buffer memory, or nothing. -/
def step (s : State) : Host.Outcome State Fault Refusal :=
  match s.host with
  | [] => idle s
  | .byte _ :: _ => stepCommand s
  | .write sp a v :: rest => hostWrite sp a v rest s
  | .read sp a :: rest => hostRead sp a rest s

/-- The command given by `nbits` bits of a table word, every later bit 0, put at the front of the host's moves
(log 1). -/
def State.withFetchWord (s : State) (nbits w : Nat) : State :=
  { s with host := (tableBytes s.cfg.idxW nbits w).map HostMove.byte ++ s.host }

end Sys2Proof.Machine
end

