-- ==== Sys2Proof/Safety.lean ====
section
/-! DEFINITION. The terms claims use: a block that runs, the invariants of 10_state.md R38 and R39, the end of a run
(60_exceptions.md R223), sequences of operations, the line image (41_transmit.md R119), and a state less the values
no claim may read (93_implementation_defined.md U9). -/

namespace Sys2Proof.Machine

/-- A block that exists (40_session.md R100) and has recorded no model fault (60_exceptions.md R208). -/
abbrev State.live (s : State) : Prop := s.cfg.valid = true ∧ s.fault = none

/-- 10_state.md R24, R28: exactly one of the eight single-bit values. -/
def maskLegal (m : Byte) : Bool :=
  [0x01#8, 0x02#8, 0x04#8, 0x08#8, 0x10#8, 0x20#8, 0x40#8, 0x80#8].contains m

/-- 10_state.md R38, with R23's `out.i ≤ out.len`: the transmit invariant. -/
def State.txInv (s : State) : Bool :=
  decide (s.out.len ≤ s.cfg.outCap) && decide (s.out.i ≤ s.out.len) && maskLegal s.out.mask &&
  match s.out.mode with
  | .done => true
  | .startBit => decide (s.out.mask = 0x01#8) && (decide (s.out.i < s.out.len) || decide (s.out.len = 0))
  | .bits => decide (s.out.i < s.out.len) || decide (s.out.len = 0)
  | .stopBit => decide (s.out.mask = 0x80#8) && decide (1 ≤ s.out.i)

/-- 10_state.md R39, less its value of `in.mask` in `StopBit`, which no claim may read (90_conflicts.md C1): the
receive invariant. -/
def State.rxInv (s : State) : Bool :=
  decide (s.inp.i ≤ s.cfg.inCap) && maskLegal s.inp.mask &&
  match s.inp.mode with
  | .done => true
  | .startBit => decide (1 ≤ s.inp.i)
  | .bits => decide (s.inp.i < s.cfg.inCap)
  | .stopBit => decide (s.inp.i < s.cfg.inCap)

/-- The two buffer memories are in canonical form and hold only the addresses of 20_memory.md R50. -/
def State.memInv (s : State) : Bool :=
  Memory.wf s.outMem && Memory.within s.cfg.outCap s.outMem && Memory.wf s.inMem &&
  Memory.within s.cfg.inCap s.inMem

/-- The machine's invariant: a valid configuration, R38, R39 and the memories' form. -/
abbrev State.Inv (s : State) : Prop :=
  s.cfg.valid = true ∧ s.txInv = true ∧ s.rxInv = true ∧ s.memInv = true

/-- 60_exceptions.md R223: how a run ends. -/
inductive RunEnd where
  /-- Every command completed and no model fault is recorded; the observation is the state. -/
  | final (s : State)
  /-- A model fault is recorded. This is never final. -/
  | faulted (s : State)
  /-- A command was refused; by the model's choice also an unfinished command, a host access outside a buffer, and any
  move of an invalid configuration (logs 10, 11 and 13). -/
  | illFormed (r : Refusal)
  /-- Host moves are left after the given number of steps. -/
  | unfinished
  deriving DecidableEq, Repr

/-- 60_exceptions.md R223: the host's moves applied in order, at most `n` of them. R223 gives its outcomes faulted and
ill-formed no order. DESIGN CHOICE (log 22): once a model fault is recorded, a run that meets a command, legal or not,
is faulted, and one that meets a host access outside a buffer first is ill-formed. -/
def runMoves : Nat → State → RunEnd
  | n, s =>
    match s.host with
    | [] =>
      match s.fault with
      | none => .final s
      | some _ => .faulted s
    | _ :: _ =>
      match n with
      | 0 => .unfinished
      | n + 1 =>
        match step s with
        | .next t => runMoves n t
        | .fault _ => .faulted s
        | .refused r => .illFormed r

/-- Operations one after another, stopping at the first that answers no next state. -/
def execAll : List Instr → State → Host.Outcome State Fault Refusal
  | [], s => .next s
  | i :: r, s =>
    match exec i s with
    | .next t => execAll r t
    | .fault k => .fault k
    | .refused k => .refused k

/-- `n` WRITE_STEPs, the pseudo-instruction `write_step_n n` (30_encoding.md R84). -/
def writeSteps (n : Nat) : List Instr := List.replicate n .writeStep

/-- One READ_SINK for each level, in order, the pseudo-instruction `read_sink_seq` (30_encoding.md R84). -/
def readSinks (levels : List Level) : List Instr := levels.map .readSink

/-- The level of a bit (00_scope.md R9). -/
def levelOfBool (b : Bool) : Level := if b then .high else .low

/-- 41_transmit.md R119: one byte's ten levels, start bit, data bits 0 to 7, stop bit. -/
def byteImage (b : Byte) : List Level :=
  [.low, levelOfBool (b.getLsbD 0), levelOfBool (b.getLsbD 1), levelOfBool (b.getLsbD 2),
    levelOfBool (b.getLsbD 3), levelOfBool (b.getLsbD 4), levelOfBool (b.getLsbD 5), levelOfBool (b.getLsbD 6),
    levelOfBool (b.getLsbD 7), .high]

/-- 41_transmit.md R119: the line image of a message. -/
def lineImage (p : List Byte) : List Level := p.flatMap byteImage

/-- WRITE_STEP's response for a level: Low is 0 and High is 1 (30_encoding.md R81). -/
def levelResponse : Level → Response
  | .low => ⟨0#4, 0⟩
  | .high => ⟨1#4, 0⟩

/-- A state less the two mask values that 93_implementation_defined.md U9 says no claim may read: `out.mask` in
`Done`, and `in.mask` outside `Bits`. Two states with the same `shown` agree in everything else. -/
def State.shown (s : State) : State :=
  { s with
    out := { s.out with mask := if s.out.mode = .done then 0 else s.out.mask }
    inp := { s.inp with mask := if s.inp.mode = .bits then s.inp.mask else 0 } }

end Sys2Proof.Machine

namespace Sys2Proof

/-- The transmit commands (10_state.md R37). -/
def Instr.isTransmit : Instr → Bool
  | .writeEnqueue _ => true
  | .writeBusy => true
  | .writeAbort => true
  | .writeStep => true
  | .init => false
  | .readSink _ => false

end Sys2Proof
end

