-- ==== Sys2Proof/Certificates/Slice0/Obligations.lean ====
section
/-! DEFINITION. The statements for the provers. Expected states are written out as records and codes as numerals, from
the spec's rules and not from the model's own operations. A statement whose docstring names a decision D<n> rests on
a row of spec/92_eei_decisions.md, the spec's own choice. -/

open Sys2Proof Sys2Proof.Machine

/-! ### Reset, configuration, encoding -/

/-- 70_reset_and_hazards.md R250 (D4, D42): what power-on leaves, for every configuration and all contents of the two
buffers, that INIT gives every register the same value and leaves the rest, and what the first operations then do. -/
def Obligations.PowerOnState : Prop :=
  ∀ (cfg : Config) (om im : Memory) (moves : List HostMove),
    (State.powerOn cfg om im moves).out = ⟨.done, 0, 0x01#8, 0⟩ ∧
    (State.powerOn cfg om im moves).inp = ⟨.done, 0, 0x01#8⟩ ∧
    (State.powerOn cfg om im moves).busy = false ∧
    (State.powerOn cfg om im moves).cfg = cfg ∧
    (State.powerOn cfg om im moves).outMem = om ∧
    (State.powerOn cfg om im moves).inMem = im ∧
    (State.powerOn cfg om im moves).events = [] ∧
    (State.powerOn cfg om im moves).fault = none ∧
    (cfg.valid = true →
      exec .writeStep (State.powerOn cfg om im moves) =
        .next { State.powerOn cfg om im moves with responses := [⟨1#4, 0⟩] } ∧
      exec (.readSink .high) (State.powerOn cfg om im moves) =
        .next { State.powerOn cfg om im moves with responses := [⟨0#4, 0⟩] }) ∧
    (∀ s t : State, exec .init s = .next t →
      t.out = (State.powerOn cfg om im moves).out ∧ t.inp = (State.powerOn cfg om im moves).inp ∧
      t.cfg = s.cfg ∧ t.outMem = s.outMem ∧ t.inMem = s.inMem ∧ t.events = s.events ∧ t.fault = s.fault)

/-- The invariant of 10_state.md R38 and R39 holds after power-on of every valid configuration with buffers in the
canonical form, and in the one state called reset (its configuration is the model's choice, log 5). -/
def Obligations.ResetMeetsInvariants : Prop :=
  (∀ (cfg : Config) (om im : Memory) (moves : List HostMove), cfg.valid = true →
    Memory.wf om = true → Memory.within cfg.outCap om = true →
    Memory.wf im = true → Memory.within cfg.inCap im = true →
    (State.powerOn cfg om im moves).Inv ∧ (State.powerOn cfg om im moves).live) ∧
  State.reset.Inv ∧ State.reset.live

/-- 40_session.md R100 and 60_exceptions.md R207 (D2): a configuration is valid unless a buffer is absent while its
declared size is nonzero; for an invalid one no block exists, so neither a step nor a command runs; and INIT never
returns its configuration error. -/
def Obligations.InvalidConfigurationHasNoBlock : Prop :=
  (∀ c : Config, c.buffersValid = true ↔
    ¬(c.inPresent = false ∧ c.inCap ≠ 0) ∧ ¬(c.outPresent = false ∧ c.outCap ≠ 0)) ∧
  (∀ s : State, s.cfg.buffersValid = false →
    step s = .refused .invalidConfig ∧ ∀ i : Instr, exec i s = .refused .invalidConfig) ∧
  (∀ s t : State, exec .init s = .next t → t.responses = s.responses ++ [⟨1#4, 0⟩])

/-- The words of 95_test_vectors.md section 2.1 (30_encoding.md R73 to R75, D7) decode to the commands they stand
for. -/
def Obligations.SpecWordsDecode : Prop :=
  decode 8 [0x20#8] = .ok .init [] ∧
  decode 8 [0x40#8, 0x02#8, 0x48#8, 0x49#8] = .ok (.writeEnqueue [0x48#8, 0x49#8]) [] ∧
  decode 8 [0x40#8, 0x00#8] = .ok (.writeEnqueue []) [] ∧
  decode 8 [0x60#8] = .ok .writeBusy [] ∧
  decode 8 [0x80#8] = .ok .writeAbort [] ∧
  decode 8 [0xA0#8] = .ok .writeStep [] ∧
  decode 8 [0xC0#8] = .ok (.readSink .low) [] ∧
  decode 8 [0xC1#8] = .ok (.readSink .high) [] ∧
  decode 8 [0x1F#8] = .illegal .reservedOp ∧
  decode 8 [0xE0#8] = .illegal .reservedOp ∧
  decode 8 [0xC2#8] = .illegal .reservedBits ∧
  decode 8 [0xA1#8] = .illegal .strayBit ∧
  decode 4 [0x40#8, 0x1F#8] = .illegal .wideLen

/-- 30_encoding.md R72 to R76: every well-formed command, whatever follows it in the stream, decodes to itself. -/
def Obligations.DecodeInvertsEncode : Prop :=
  ∀ (idxW : Nat) (i : Instr) (rest : List Byte), i.wf idxW = true →
    decode idxW (encode idxW i ++ rest) = .ok i rest

/-- 30_encoding.md R76 and R77: the decoder accepts nothing but the encodings of well-formed commands, so no bit of
an accepted command is ignored. -/
def Obligations.DecodedIsEncoded : Prop :=
  ∀ (idxW : Nat) (bs : List Byte) (i : Instr) (rest : List Byte), decode idxW bs = .ok i rest →
    i.wf idxW = true ∧ bs = encode idxW i ++ rest

/-- 30_encoding.md R77 (D8): exactly these commands are illegal; the last clause is format E's LEN with a bit above
IDX_W-1 set. -/
def Obligations.IllegalCommandsAreThese : Prop :=
  ∀ (idxW : Nat) (c : Byte) (r : List Byte),
    (∃ why, decode idxW (c :: r) = .illegal why) ↔
      (c.toNat / 32 = 0 ∨ c.toNat / 32 = 7 ∨
       c.toNat / 2 % 16 ≠ 0 ∨
       (c.toNat % 2 = 1 ∧ c.toNat / 32 ≠ 6) ∨
       (c = 0x40#8 ∧ (idxW + 7) / 8 ≤ r.length ∧ 2 ^ idxW ≤ leValue (r.take ((idxW + 7) / 8))))

/-- 60_exceptions.md R209: step refuses an illegal command and names its position. That the position counts command
bytes from 0 is the model's choice (log 12). -/
def Obligations.IllegalCommandIsRefused : Prop :=
  ∀ (s : State) (why : Illegal), s.live →
    decode s.cfg.idxW (leadingBytes s.host) = .illegal why → step s = .refused (.illegalCommand why s.pos)

/-! ### The step -/

/-- When the bytes at the front of the host's moves decode to a command, step takes its bytes and is exec of it
(30_encoding.md R70). The list of moves is the model's (log 1). -/
def Obligations.StepRunsDecodedCommand : Prop :=
  ∀ (s : State) (i : Instr) (rest : List Byte),
    decode s.cfg.idxW (leadingBytes s.host) = .ok i rest →
    step s = exec i { s with
      host := s.host.drop (encodedLength s.cfg.idxW i), pos := s.pos + encodedLength s.cfg.idxW i }

/-- 20_memory.md R55 and R58 (D22), also of a block with a recorded model fault, whose host accesses still apply by
the model's reading of 60_exceptions.md R208 and R223 (log 9): a host write stores its byte and nothing else, a host read returns the byte at its
address and changes nothing; the record of what a read returned is the model's (log 4), and so is the idle step of a
block with no pending move (log 2). -/
def Obligations.HostAccessesAndIdle : Prop :=
  (∀ (s : State) (sp : Space) (a : Nat) (v : Byte) (rest : List HostMove),
    s.cfg.valid = true → Memory.wf (s.mem sp) = true → s.host = .write sp a v :: rest → a < s.cfg.cap sp →
    ∃ t m, step s = .next t ∧ t = { s.setMem sp m with host := rest } ∧ t.mem sp = m ∧
      ∀ x, m.read x = if x = a then v else (s.mem sp).read x) ∧
  (∀ (s : State) (sp : Space) (a : Nat) (rest : List HostMove),
    s.cfg.valid = true → s.host = .read sp a :: rest → a < s.cfg.cap sp →
    step s = .next { s with reads := s.reads ++ [⟨sp, a, (s.mem sp).read a⟩], host := rest }) ∧
  (∀ s : State, s.live → s.host = [] → step s = .next s)

/-! ### INIT -/

/-- 40_session.md R101 (D3): INIT puts both engines in their initial state, writes nothing else, and returns success;
busy becomes false. -/
def Obligations.InitResetsBothEngines : Prop :=
  (∀ s : State, s.live →
    exec .init s = .next { s with
      out := ⟨.done, 0, 0x01#8, 0⟩, inp := ⟨.done, 0, 0x01#8⟩, responses := s.responses ++ [⟨1#4, 0⟩] }) ∧
  (∀ s t : State, exec .init s = .next t → t.busy = false) ∧
  (∀ (idxW : Nat) (r : List Byte), decode idxW (0x20#8 :: r) = .ok .init r)

/-! ### The transmit engine -/

/-- 41_transmit.md R110, with R202, R203 and R121: busy first, then too large, both leaving everything as it was; else
the message is copied in and the registers written. The bytes past the message keep what they held. The last two
clauses are R110's encoding and its corner case of the empty message. -/
def Obligations.EnqueueOutcomes : Prop :=
  (∀ (p : List Byte) (s : State), s.live → s.out.mode ≠ .done →
    exec (.writeEnqueue p) s = .next { s with responses := s.responses ++ [⟨3#4, 0⟩] }) ∧
  (∀ (p : List Byte) (s : State), s.live → s.out.mode = .done → s.cfg.outCap < p.length →
    exec (.writeEnqueue p) s = .next { s with responses := s.responses ++ [⟨2#4, 0⟩] }) ∧
  (∀ (p : List Byte) (s : State), s.live → Memory.wf s.outMem = true → s.out.mode = .done →
    p.length ≤ s.cfg.outCap →
    ∃ t m, exec (.writeEnqueue p) s = .next t ∧ t.busy = true ∧
      t = { s with
        out := ⟨.startBit, 0, 0x01#8, p.length⟩, outMem := m, responses := s.responses ++ [⟨0#4, 0⟩] } ∧
      ∀ a, m.read a = if a < p.length then p.getD a 0 else s.outMem.read a) ∧
  (∀ (idxW : Nat) (p : List Byte),
    encode idxW (.writeEnqueue p) = 0x40#8 :: (leBytes ((idxW + 7) / 8) p.length ++ p)) ∧
  (∀ s : State, s.live → s.out.mode = .done →
    ∃ t u v, exec (.writeEnqueue []) s = .next t ∧
      exec .writeStep t = .next u ∧ u.responses = t.responses ++ [⟨0#4, 0⟩] ∧
      exec .writeStep u = .next v ∧ v = { u with fault := some .txEmptyMessage })

/-- 41_transmit.md R112: WRITE_STEP in `Done` returns High and changes no state, for as many steps as the host
issues. -/
def Obligations.IdleStepsDriveHigh : Prop :=
  ∀ s : State, s.live → s.out.mode = .done →
    exec .writeStep s = .next { s with responses := s.responses ++ [⟨1#4, 0⟩] } ∧
    ∀ n : Nat, execAll (writeSteps n) s = .next { s with responses := s.responses ++ List.replicate n ⟨1#4, 0⟩ }

/-- 41_transmit.md R113: WRITE_STEP in `StartBit` returns Low and sets the mode to `Bits`; the mask is already 0x01
there in every state of the invariant. -/
def Obligations.StartBitDrivesLow : Prop :=
  (∀ s : State, s.live → s.out.mode = .startBit →
    exec .writeStep s = .next { s with
      out := { s.out with mode := .bits }, responses := s.responses ++ [⟨0#4, 0⟩] }) ∧
  (∀ s : State, s.Inv → s.out.mode = .startBit → s.out.mask = 0x01#8)

/-- 41_transmit.md R114 and R116 (D17): WRITE_STEP in `Bits` first faults past an empty message, changing nothing but
the fault record, which the invariant allows only after an empty enqueue; otherwise it sends the data bit at the mask
and moves on, the byte's bits going out from bit 0 to bit 7 over eight steps. -/
def Obligations.DataBitSteps : Prop :=
  (∀ s : State, s.live → s.out.mode = .bits → s.out.len ≤ s.out.i →
    exec .writeStep s = .next { s with fault := some .txEmptyMessage }) ∧
  (∀ s : State, s.Inv → s.out.mode = .bits → s.out.len ≤ s.out.i → s.out.len = 0 ∧ s.out.i = 0) ∧
  (∀ s : State, s.live → s.out.mode = .bits → s.out.i < s.out.len → s.out.i < s.cfg.outCap →
    exec .writeStep s = .next { s with
      out := if s.out.mask = 0x80#8 then { s.out with mode := .stopBit, i := s.out.i + 1 }
        else { s.out with mask := s.out.mask <<< 1 }
      responses := s.responses ++ [⟨if s.outMem.read s.out.i &&& s.out.mask = 0 then 0#4 else 1#4, 0⟩] }) ∧
  (∀ s : State, s.live → s.out.mode = .bits → s.out.i < s.out.len → s.out.i < s.cfg.outCap →
    s.out.mask = 0x01#8 →
    execAll (writeSteps 8) s = .next { s with
      out := { s.out with mode := .stopBit, i := s.out.i + 1, mask := 0x80#8 }
      responses := s.responses ++
        (List.range 8).map (fun j => ⟨if (s.outMem.read s.out.i).getLsbD j then 1#4 else 0#4, 0⟩) })

/-- 41_transmit.md R115: WRITE_STEP in `StopBit` returns High; the message is complete, or the next byte's start bit
follows. The mask left in `Done` is not read (93_implementation_defined.md U9). -/
def Obligations.StopBitSteps : Prop :=
  ∀ s : State, s.live → s.out.mode = .stopBit →
    (s.out.i = s.out.len → ∃ t, exec .writeStep s = .next t ∧
      t.shown = State.shown { s with
        out := { s.out with mode := .done }, responses := s.responses ++ [⟨1#4, 0⟩] }) ∧
    (s.out.i ≠ s.out.len →
      exec .writeStep s = .next { s with
        out := { s.out with mask := 0x01#8, mode := .startBit }, responses := s.responses ++ [⟨1#4, 0⟩] })

/-- 41_transmit.md R117: WRITE_BUSY returns true iff the mode is not `Done`, and changes no state. -/
def Obligations.BusyReportsMode : Prop :=
  (∀ s : State, s.live →
    exec .writeBusy s = .next { s with
      responses := s.responses ++ [⟨if s.out.mode = .done then 0#4 else 1#4, 0⟩] }) ∧
  (∀ (idxW : Nat) (r : List Byte), decode idxW (0x60#8 :: r) = .ok .writeBusy r)

/-- 10_state.md R32: busy is `out.mode ≠ Done`, false at reset, and changes exactly at WRITE_ENQUEUE success, the
final stop-bit WRITE_STEP, WRITE_ABORT and INIT. -/
def Obligations.BusyChangesOnlyThere : Prop :=
  (∀ s : State, s.busy = true ↔ s.out.mode ≠ .done) ∧
  (∀ (cfg : Config) (om im : Memory) (moves : List HostMove), (State.powerOn cfg om im moves).busy = false) ∧
  (∀ (i : Instr) (s t : State), exec i s = .next t →
    (t.busy ≠ s.busy ↔
      (∃ p, i = .writeEnqueue p ∧ s.out.mode = .done ∧ p.length ≤ s.cfg.outCap) ∨
      (i = .writeStep ∧ s.out.mode = .stopBit ∧ s.out.i = s.out.len) ∨
      (i = .writeAbort ∧ s.out.mode ≠ .done) ∨
      (i = .init ∧ s.out.mode ≠ .done)))

/-- 41_transmit.md R118: WRITE_ABORT sets the mode to `Done` and returns true, nothing outside the transmit registers
but the response changes, and the next WRITE_STEP returns High. The cursors and the length after it are any value to
a claim (93_implementation_defined.md U10). -/
def Obligations.AbortReturnsToIdle : Prop :=
  ∀ s : State, s.live → ∃ t, exec .writeAbort s = .next t ∧ t.out.mode = .done ∧ t.busy = false ∧
    { t with out := s.out } = { s with responses := s.responses ++ [⟨1#4, 0⟩] } ∧
    exec .writeStep t = .next { t with responses := t.responses ++ [⟨1#4, 0⟩] }

/-- 41_transmit.md R119 and R120, the line image of a message: after a successful enqueue of `L ≥ 1` bytes the next
`10·L` WRITE_STEPs return each byte's start bit, data bits from bit 0 and stop bit, busy being true until the last of
them and false after it, and every later step returns High. -/
def Obligations.MessageGoesOutAsItsLineImage : Prop :=
  ∀ (p : List Byte) (s : State), s.live → Memory.wf s.outMem = true → s.out.mode = .done →
    1 ≤ p.length → p.length ≤ s.cfg.outCap →
    ∃ t, exec (.writeEnqueue p) s = .next t ∧
      (∀ n, n < 10 * p.length → ∃ u, execAll (writeSteps n) t = .next u ∧ u.busy = true ∧
        u.responses = t.responses ++ ((lineImage p).take n).map levelResponse) ∧
      (∀ n, 10 * p.length ≤ n → ∃ u, execAll (writeSteps n) t = .next u ∧ u.busy = false ∧
        u.responses = t.responses ++ (lineImage p).map levelResponse ++
          List.replicate (n - 10 * p.length) ⟨1#4, 0⟩)

/-! ### The receive engine -/

/-- 42_receive.md R141: in `Done`, a high sample returns Ok and changes nothing. -/
def Obligations.IdleSampleChangesNothing : Prop :=
  ∀ s : State, s.live → s.inp.mode = .done →
    exec (.readSink .high) s = .next { s with responses := s.responses ++ [⟨0#4, 0⟩] }

/-- 42_receive.md R142 (D19: the clear covers the whole declared capacity): in `Done`, a low sample sets the byte
index to 0, clears the buffer and runs StartBitCase(0) in the same operation. -/
def Obligations.LowSampleStartsFrame : Prop :=
  ∀ s : State, s.live → Memory.wf s.inMem = true → s.inp.mode = .done →
    ∃ m : Memory, (∀ a, m.read a = if a < s.cfg.inCap then 0 else s.inMem.read a) ∧
      (s.cfg.inCap = 0 → ∃ t, exec (.readSink .low) s = .next t ∧
        t.shown = State.shown { s with
          inp := { s.inp with mode := .done, i := 0 }, inMem := m, responses := s.responses ++ [⟨3#4, 0⟩] }) ∧
      (0 < s.cfg.inCap → exec (.readSink .low) s = .next { s with
        inp := ⟨.bits, 0, 0x01#8⟩, inMem := m, responses := s.responses ++ [⟨0#4, 0⟩] })

/-- 42_receive.md R143 (D11): a high sample in `StartBit` after at least one byte ends the message, with its event
when a callback is present; memory and byte index are not written. -/
def Obligations.HighSampleEndsMessage : Prop :=
  ∀ s : State, s.live → s.inp.mode = .startBit → 1 ≤ s.inp.i →
    ∃ t, exec (.readSink .high) s = .next t ∧
      t.shown = State.shown { s with
        inp := { s.inp with mode := .done }
        events := if s.cfg.cbPresent then s.events ++ [⟨s.cfg.closure, s.inp.i⟩] else s.events
        responses := s.responses ++ [⟨1#4, s.inp.i⟩] }

/-- 42_receive.md R145 and R146, with R204: a start bit in `StartBit` reports a full buffer, with no event and memory
kept, or begins a byte. Within the invariant a full buffer has `in.i = IN_CAP`. -/
def Obligations.StartBitTestsCapacity : Prop :=
  (∀ s : State, s.live → s.inp.mode = .startBit → s.cfg.inCap ≤ s.inp.i →
    ∃ t, exec (.readSink .low) s = .next t ∧
      t.shown = State.shown { s with
        inp := { s.inp with mode := .done }, responses := s.responses ++ [⟨3#4, 0⟩] }) ∧
  (∀ s : State, s.live → s.inp.mode = .startBit → s.inp.i < s.cfg.inCap →
    exec (.readSink .low) s = .next { s with
      inp := { s.inp with mode := .bits, mask := 0x01#8 }, responses := s.responses ++ [⟨0#4, 0⟩] }) ∧
  (∀ s : State, s.live → s.inp.mode = .done → s.cfg.inCap = 0 →
    ∃ t, exec (.readSink .low) s = .next t ∧ t.inp.mode = .done ∧ t.inp.i = 0 ∧ t.events = s.events ∧
      t.responses = s.responses ++ [⟨3#4, 0⟩]) ∧
  (∀ s : State, s.live → s.inp.mode = .done → 0 < s.cfg.inCap →
    ∃ t, exec (.readSink .low) s = .next t ∧ t.inp.mode = .bits ∧ t.inp.mask = 0x01#8 ∧
      t.responses = s.responses ++ [⟨0#4, 0⟩]) ∧
  (∀ s : State, s.Inv → s.cfg.inCap ≤ s.inp.i → s.inp.i = s.cfg.inCap)

/-- 42_receive.md R147: READ_SINK in `Bits` sets the mask bit of the current byte on a high sample, moves the mask one
position, and after the 0x80 position goes to `StopBit`, so eight samples put a byte in least significant bit first.
The mask outside `Bits` is not read (90_conflicts.md C1). -/
def Obligations.DataSamplesAssembleByte : Prop :=
  (∀ (b : Level) (s : State), s.live → Memory.wf s.inMem = true → s.inp.mode = .bits →
    s.inp.i < s.cfg.inCap →
    ∃ t m, exec (.readSink b) s = .next t ∧
      t.shown = State.shown { s with
        inp := { s.inp with
          mode := if s.inp.mask = 0x80#8 then .stopBit else .bits
          mask := (s.inp.mask <<< 1) ||| (s.inp.mask >>> 7) }
        inMem := m
        responses := s.responses ++ [⟨0#4, 0⟩] } ∧
      ∀ a, m.read a = if a = s.inp.i ∧ b = .high then s.inMem.read a ||| s.inp.mask else s.inMem.read a) ∧
  (∀ (v : Byte) (s : State), s.live → Memory.wf s.inMem = true → s.inp.mode = .bits →
    s.inp.i < s.cfg.inCap → s.inp.mask = 0x01#8 →
    ∃ t, execAll (readSinks ((List.range 8).map (fun j => levelOfBool (v.getLsbD j)))) s = .next t ∧
      t.inp.mode = .stopBit ∧ t.inp.i = s.inp.i ∧
      t.responses = s.responses ++ List.replicate 8 ⟨0#4, 0⟩ ∧
      ∀ a, t.inMem.read a = if a = s.inp.i then s.inMem.read a ||| v else s.inMem.read a)

/-- 42_receive.md R148 and 60_exceptions.md R205: a high sample in `StopBit` counts the byte; a low one is a framing
error, after which the byte is not counted and nothing but the byte being assembled may differ. That byte is any value
to a claim (93_implementation_defined.md U11). -/
def Obligations.StopBitSampleJudgesByte : Prop :=
  (∀ s : State, s.live → s.inp.mode = .stopBit →
    ∃ t, exec (.readSink .high) s = .next t ∧
      t.shown = State.shown { s with
        inp := { s.inp with i := s.inp.i + 1, mode := .startBit }, responses := s.responses ++ [⟨0#4, 0⟩] }) ∧
  (∀ s : State, s.live → s.inp.mode = .stopBit →
    ∃ t, exec (.readSink .low) s = .next t ∧
      State.shown { t with inMem := s.inMem } = State.shown { s with
        inp := { s.inp with mode := .done }, responses := s.responses ++ [⟨4#4, 0⟩] } ∧
      ∀ a, a ≠ s.inp.i → t.inMem.read a = s.inMem.read a)

/-- 42_receive.md R152, the round trip with the bounds of 90_conflicts.md C3: the line image of a message, then one
high level, is received as that message. -/
def Obligations.LineImageIsReceivedWhole : Prop :=
  ∀ (p : List Byte) (s : State), s.live → Memory.wf s.inMem = true → s.inp.mode = .done →
    1 ≤ p.length → p.length ≤ s.cfg.inCap →
    ∃ t, execAll (readSinks (lineImage p ++ [.high])) s = .next t ∧
      t.responses = s.responses ++ List.replicate (10 * p.length) ⟨0#4, 0⟩ ++ [⟨1#4, p.length⟩] ∧
      (∀ k, k < p.length → t.inMem.read k = p.getD k 0) ∧
      t.events = (if s.cfg.cbPresent then s.events ++ [⟨s.cfg.closure, p.length⟩] else s.events) ∧
      t.inp.mode = .done ∧ t.out = s.out ∧ t.outMem = s.outMem

/-- 70_reset_and_hazards.md R261: on a line held low READ_SINK returns Ok nine times and ErrorBadMessage once in every
ten samples. -/
def Obligations.LineHeldLowIsBadEveryTen : Prop :=
  ∀ (n : Nat) (s : State), s.live → s.inp.mode = .done → 0 < s.cfg.inCap →
    ∃ t, execAll (readSinks (List.replicate (10 * n) .low)) s = .next t ∧ t.inp.mode = .done ∧
      t.events = s.events ∧
      t.responses = s.responses ++ (List.replicate n (List.replicate 9 ⟨0#4, 0⟩ ++ [⟨4#4, 0⟩])).flatten

/-- 70_reset_and_hazards.md R264: fed with high samples, the receiver reaches `Done` within at most ten, from any
state of the invariant, and in one from `StartBit` and two from `StopBit`. -/
def Obligations.IdleLineReturnsReceiverToDone : Prop :=
  ∀ s : State, s.live → s.Inv →
    ∃ n t, n ≤ (match s.inp.mode with | .done => 0 | .startBit => 1 | .bits => 10 | .stopBit => 2) ∧
      execAll (readSinks (List.replicate n .high)) s = .next t ∧ t.inp.mode = .done

/-! ### Whole-machine rules -/

/-- 10_state.md R37: a transmit command neither writes the receive engine's state nor depends on it, and READ_SINK
neither writes the transmit engine's state nor depends on it. -/
def Obligations.EnginesShareNoState : Prop :=
  (∀ (i : Instr) (s t : State), i.isTransmit = true → exec i s = .next t →
    t.inp = s.inp ∧ t.inMem = s.inMem ∧ t.events = s.events ∧
    ∀ (r : RxState) (m : Memory) (e : List MsgEvent),
      exec i { s with inp := r, inMem := m, events := e } = .next { t with inp := r, inMem := m, events := e }) ∧
  (∀ (b : Level) (s t : State), exec (.readSink b) s = .next t →
    t.out = s.out ∧ t.outMem = s.outMem ∧
    ∀ (r : TxState) (m : Memory),
      exec (.readSink b) { s with out := r, outMem := m } = .next { t with out := r, outMem := m })

/-- 20_memory.md R61: a transmit command and a READ_SINK commute. Both orders leave the same state, and each command
gives the same response. -/
def Obligations.EnginesCommute : Prop :=
  ∀ (i : Instr) (b : Level) (s t u : State), i.isTransmit = true →
    exec i s = .next t → t.fault = none → exec (.readSink b) s = .next u → u.fault = none →
    ∃ v w rt ru, exec (.readSink b) t = .next v ∧ exec i u = .next w ∧
      { v with responses := [] } = { w with responses := [] } ∧
      t.responses = s.responses ++ rt ∧ u.responses = s.responses ++ ru ∧
      v.responses = s.responses ++ rt ++ ru ∧ w.responses = s.responses ++ ru ++ rt

/-- 20_memory.md R51: the block writes `out_mem` only in an accepted enqueue, below the message's length, and `in_mem`
only at a frame's start, below the capacity, and in `Bits` on a high sample, at `in.i`. -/
def Obligations.MemoryWritesAreThese : Prop :=
  ∀ (i : Instr) (s t : State), Memory.wf s.outMem = true → Memory.wf s.inMem = true → exec i s = .next t →
    (∀ a, t.outMem.read a ≠ s.outMem.read a →
      ∃ p, i = .writeEnqueue p ∧ s.out.mode = .done ∧ p.length ≤ s.cfg.outCap ∧ a < p.length) ∧
    (∀ a, t.inMem.read a ≠ s.inMem.read a →
      (i = .readSink .low ∧ s.inp.mode = .done ∧ a < s.cfg.inCap) ∨
      (i = .readSink .high ∧ s.inp.mode = .bits ∧ a = s.inp.i))

/-- 10_state.md R29: no step changes the configuration, and CLOSURE is never interpreted: with another closure every
command does the same but for the closures in the events. -/
def Obligations.ConfigurationIsFixed : Prop :=
  (∀ s t : State, step s = .next t → t.cfg = s.cfg) ∧
  (∀ (i : Instr) (s t : State) (c : Closure), exec i s = .next t →
    t.cfg = s.cfg ∧
    ∃ e : List MsgEvent, e.map MsgEvent.count = t.events.map MsgEvent.count ∧
      exec i { s with cfg := { s.cfg with closure := c } } =
        .next { t with cfg := { s.cfg with closure := c }, events := e })

/-- 10_state.md R30 and 60_exceptions.md R212 (D11, D12): a command appends one event exactly when it is a READ_SINK
that returns GotMessage and a callback is present; no step takes an event away; the history is empty at power-on. -/
def Obligations.EventsAreReceivedMessages : Prop :=
  (∀ (i : Instr) (s t : State), exec i s = .next t →
    (t.events = s.events ∧
      ¬(s.cfg.cbPresent = true ∧ ∃ b n, i = .readSink b ∧ t.responses = s.responses ++ [⟨1#4, n⟩])) ∨
    (s.cfg.cbPresent = true ∧ ∃ b n, i = .readSink b ∧ t.responses = s.responses ++ [⟨1#4, n⟩] ∧
      t.events = s.events ++ [⟨s.cfg.closure, n⟩])) ∧
  (∀ s t : State, step s = .next t → s.events <+: t.events) ∧
  (∀ (cfg : Config) (om im : Memory) (moves : List HostMove), (State.powerOn cfg om im moves).events = [])

/-- 30_encoding.md R80 (D9) and R82: a command that completes gives one response, whose COUNT is `in.i` for GotMessage
and 0 otherwise, and one that raises a model fault gives none. The history of responses is the model's (log 3). -/
def Obligations.OneResponsePerCommand : Prop :=
  ∀ (i : Instr) (s t : State), exec i s = .next t →
    (t.fault ≠ none → t.responses = s.responses) ∧
    (t.fault = none → ∃ code count, t.responses = s.responses ++ [⟨code, count⟩] ∧
      (((∃ b, i = .readSink b) ∧ code = 1#4) → count = s.inp.i) ∧
      (¬((∃ b, i = .readSink b) ∧ code = 1#4) → count = 0))

/-- 30_encoding.md R81 and 60_exceptions.md R206 (D9, D10): the numbers of the results, and which of them each command
can return; ErrorNull and the `false` of WRITE_ABORT and INIT are never returned. -/
def Obligations.ResultCodesAreListed : Prop :=
  (∀ (i : Instr) (s t : State) (r : Response), exec i s = .next t → t.responses = s.responses ++ [r] →
    match i with
    | .init => r.code = 1#4
    | .writeEnqueue _ => r.code = 0#4 ∨ r.code = 2#4 ∨ r.code = 3#4
    | .writeBusy => r.code = 0#4 ∨ r.code = 1#4
    | .writeAbort => r.code = 1#4
    | .writeStep => r.code = 0#4 ∨ r.code = 1#4
    | .readSink _ => r.code = 0#4 ∨ r.code = 1#4 ∨ r.code = 3#4 ∨ r.code = 4#4) ∧
  (EnqueueResult.ok.code, EnqueueResult.errorNull.code, EnqueueResult.errorTooLarge.code,
    EnqueueResult.errorBusy.code) = (0#4, 1#4, 2#4, 3#4) ∧
  (StepResult.low.code, StepResult.high.code, StepResult.errorNull.code) = (0#4, 1#4, 2#4) ∧
  (SinkResult.ok.code, SinkResult.gotMessage.code, SinkResult.errorNull.code, SinkResult.errorBufferFull.code,
    SinkResult.errorBadMessage.code) = (0#4, 1#4, 2#4, 3#4, 4#4) ∧
  (boolCode false, boolCode true) = (0#4, 1#4)

/-- 60_exceptions.md R213: every command can be issued in any state of a live block; within the invariant each
completes with its response, but for a WRITE_STEP past an empty message. -/
def Obligations.EveryCommandCompletes : Prop :=
  ∀ (i : Instr) (s : State), s.live → s.Inv →
    ¬(i = .writeStep ∧ s.out.mode = .bits ∧ s.out.len ≤ s.out.i) →
    ∃ t r, exec i s = .next t ∧ t.fault = none ∧ t.responses = s.responses ++ [r]

/-- 60_exceptions.md R208 and 20_memory.md R56: what raises the two model faults, that a raise changes nothing but the
record, and that MEM_RANGE cannot be raised within the invariant. -/
def Obligations.FaultsAreRaisedOnlyThere : Prop :=
  ∀ (i : Instr) (s t : State) (k : FaultKind), exec i s = .next t → t.fault = some k →
    t = { s with fault := some k } ∧
    ((k = .txEmptyMessage ∧ i = .writeStep ∧ s.out.mode = .bits ∧ s.out.len ≤ s.out.i) ∨
     (k = .memRange ∧ i = .writeStep ∧ s.out.mode = .bits ∧ s.out.i < s.out.len ∧ s.cfg.outCap ≤ s.out.i) ∨
     (k = .memRange ∧ i = .readSink .high ∧ s.inp.mode = .bits ∧ s.cfg.inCap ≤ s.inp.i)) ∧
    (s.Inv → k = .txEmptyMessage)

/-- 20_memory.md R56 (D17): an access at or past the capacity raises MEM_RANGE and does not touch memory. -/
def Obligations.OutOfRangeAccessFaults : Prop :=
  (∀ s : State, s.live → s.out.mode = .bits → s.out.i < s.out.len → s.cfg.outCap ≤ s.out.i →
    exec .writeStep s = .next { s with fault := some .memRange }) ∧
  (∀ s : State, s.live → s.inp.mode = .bits → s.cfg.inCap ≤ s.inp.i →
    exec (.readSink .high) s = .next { s with fault := some .memRange })

/-- 10_state.md R31 (D41) and the quiescence of 60_exceptions.md R208: the record is `none` at power-on, raising sets it
where it is `none` and keeps it otherwise, once set no step clears or changes it, and no command has a step after
it. -/
def Obligations.FaultRecordIsSticky : Prop :=
  (∀ (cfg : Config) (om im : Memory) (moves : List HostMove), (State.powerOn cfg om im moves).fault = none) ∧
  (∀ (s : State) (k : FaultKind), s.raise k = { s with fault := some (s.fault.getD k) }) ∧
  (∀ (s t : State) (k : FaultKind), s.fault = some k → step s = .next t → t.fault = some k) ∧
  (∀ (i : Instr) (s : State) (k : FaultKind), s.cfg.valid = true → s.fault = some k →
    exec i s = .fault (.quiescent k))

/-- 10_state.md R38 and R39, with the canonical form of both memories: every step keeps the invariant. -/
def Obligations.EveryStepKeepsInvariants : Prop :=
  ∀ s t : State, s.Inv → step s = .next t → t.Inv

/-- 60_exceptions.md R223 (D43): no run can hang inside the block. Applying as many steps as the host has moves ends
every run, final with no fault recorded, faulted, or ill-formed. R223 calls a run ill-formed where a command byte is refused; the
third outcome here also holds refused host addresses (log 10), unfinished commands (log 11) and invalid configurations
(log 13), and where a fault is recorded the outcome is by log 22: all four are the model's choices. -/
def Obligations.EveryRunEnds : Prop :=
  ∀ s : State,
    (∃ t, runMoves s.host.length s = .final t ∧ t.host = [] ∧ t.fault = none) ∨
    (∃ t, runMoves s.host.length s = .faulted t ∧ t.fault ≠ none) ∨
    (∃ r, runMoves s.host.length s = .illFormed r)

/-- The values that the spec fixes by its own decisions and that no response shows: the transmit mask after the final
stop bit (D14), the transmit registers after WRITE_ABORT (D15), the receive mask's rotation (D13), the StartBit case
with no byte (R144, D18) and memory after a bad stop bit (D20). They are facts of this model; 93_implementation_defined.md
U6 and U9 to U11 leave them any value of the original (logs 14 to 17). -/
def Obligations.DecidedHiddenValues : Prop :=
  (∀ s t : State, s.out.mode = .stopBit → s.out.i = s.out.len → exec .writeStep s = .next t →
    t.out = { s.out with mode := .done }) ∧
  (∀ s t : State, exec .writeAbort s = .next t → t.out = { s.out with mode := .done }) ∧
  (∀ (b : Level) (s t : State), s.inp.mode = .bits → t.fault = none → exec (.readSink b) s = .next t →
    t.inp.mask = (s.inp.mask <<< 1) ||| (s.inp.mask >>> 7)) ∧
  (∀ s : State, s.live → s.inp.mode = .startBit → s.inp.i = 0 →
    exec (.readSink .high) s = .next { s with responses := s.responses ++ [⟨0#4, 0⟩] }) ∧
  (∀ s : State, s.live → s.inp.mode = .stopBit →
    exec (.readSink .low) s = .next { s with
      inp := { s.inp with mode := .done }, responses := s.responses ++ [⟨4#4, 0⟩] })

/-- 60_exceptions.md R208, a block with a recorded model fault: a step that would take a command stops, and so does one
with no pending move. That it stops so also where the bytes are illegal or unfinished, which R209 makes no command, is
the model's choice (log 22), and the idle stop is its reading (log 9). -/
def Obligations.FaultedBlockTakesNoCommand : Prop :=
  ∀ (s : State) (k : FaultKind), s.cfg.valid = true → s.fault = some k →
    (∀ (c : Byte) (rest : List HostMove), s.host = .byte c :: rest → step s = .fault (.quiescent k)) ∧
    (s.host = [] → step s = .fault (.quiescent k))
end

