-- ==== Sys2Proof/Laws/Memory.lean ====
section
/-! SUPPORT. Reads after writes, and that a write keeps the canonical form. -/

namespace Sys2Proof.Machine

@[simp] theorem Memory.read_nil (a : Nat) : Memory.read [] a = unlistedByte := rfl

theorem Memory.wfFrom_cons {lo x : Nat} {v : Byte} {r : Memory} :
    Memory.wfFrom lo ((x, v) :: r) = true ↔ lo ≤ x ∧ v ≠ unlistedByte ∧ Memory.wfFrom (x + 1) r = true := by
  simp [Memory.wfFrom, and_assoc]

theorem Memory.wfFrom_mono {lo lo' : Nat} {m : Memory} (h : Memory.wfFrom lo m = true) (hl : lo' ≤ lo) :
    Memory.wfFrom lo' m = true := by
  cases m with
  | nil => rfl
  | cons c r =>
    obtain ⟨x, v⟩ := c
    rw [Memory.wfFrom_cons] at h ⊢
    exact ⟨hl.trans h.1, h.2⟩

/-- Nothing is listed below the form's lower bound. -/
theorem Memory.read_below {lo : Nat} {m : Memory} (h : Memory.wfFrom lo m = true) {a : Nat} (ha : a < lo) :
    m.read a = unlistedByte := by
  induction m generalizing lo with
  | nil => rfl
  | cons c r ih =>
    obtain ⟨x, v⟩ := c
    rw [Memory.wfFrom_cons] at h
    rw [Memory.read, if_neg (by omega)]
    exact ih h.2.2 (by omega)

theorem Memory.write_wfFrom {lo : Nat} {m : Memory} (h : Memory.wfFrom lo m = true) {a : Nat} (ha : lo ≤ a)
    (v : Byte) : Memory.wfFrom lo (m.write a v) = true := by
  induction m generalizing lo with
  | nil =>
    by_cases hv : v = unlistedByte <;> simp [Memory.write, Memory.wfFrom, hv, ha]
  | cons c r ih =>
    obtain ⟨x, w⟩ := c
    have hc := Memory.wfFrom_cons.1 h
    rw [Memory.write]
    split_ifs with h1 h2 h3 h4
    · exact h
    · exact Memory.wfFrom_cons.2 ⟨ha, h2, Memory.wfFrom_cons.2 ⟨h1, hc.2⟩⟩
    · exact Memory.wfFrom_mono hc.2.2 (by omega)
    · exact Memory.wfFrom_cons.2 ⟨ha, h4, Memory.wfFrom_mono hc.2.2 (by omega)⟩
    · exact Memory.wfFrom_cons.2 ⟨hc.1, hc.2.1, ih hc.2.2 (by omega)⟩

/-- A write keeps the canonical form. -/
theorem Memory.write_wf {m : Memory} (h : m.wf = true) (a : Nat) (v : Byte) : (m.write a v).wf = true :=
  Memory.write_wfFrom h (Nat.zero_le a) v

theorem Memory.read_write_from {lo : Nat} {m : Memory} (h : Memory.wfFrom lo m = true) (a : Nat) (v : Byte) (x : Nat) :
    (m.write a v).read x = if x = a then v else m.read x := by
  induction m generalizing lo with
  | nil =>
    by_cases hv : v = unlistedByte <;> by_cases hx : x = a <;> simp [Memory.write, Memory.read, hv, hx, Ne.symm]
  | cons c r ih =>
    obtain ⟨y, w⟩ := c
    have hc := Memory.wfFrom_cons.1 h
    have hr := Memory.read_below hc.2.2 (a := a)
    have hi := ih hc.2.2
    rw [Memory.write]
    split_ifs with h1 h2 h3 h4 h5 <;> grind [Memory.read]

/-- A read after a write: the byte written at that address, and every other address as before. -/
theorem Memory.read_write {m : Memory} (h : m.wf = true) (a : Nat) (v : Byte) (x : Nat) :
    (m.write a v).read x = if x = a then v else m.read x :=
  Memory.read_write_from h a v x

@[simp] theorem Memory.within_nil (cap : Nat) : Memory.within cap [] = true := rfl

theorem Memory.within_cons {cap x : Nat} {v : Byte} {r : Memory} :
    Memory.within cap ((x, v) :: r) = true ↔ x < cap ∧ Memory.within cap r = true := by
  simp [Memory.within]

/-- A write below the capacity lists no address at or past it. -/
theorem Memory.write_within {cap : Nat} {m : Memory} (h : Memory.within cap m = true) {a : Nat} (ha : a < cap)
    (v : Byte) : Memory.within cap (m.write a v) = true := by
  induction m with
  | nil => by_cases hv : v = unlistedByte <;> simp [Memory.write, Memory.within, hv, ha]
  | cons c r ih =>
    obtain ⟨x, w⟩ := c
    have hc := Memory.within_cons.1 h
    rw [Memory.write]
    split_ifs <;> simp_all [Memory.within_cons]

/-- Equal memories are equal data: two memories in canonical form that read alike are the same list. -/
theorem Memory.ext_of_read {lo : Nat} {m m' : Memory} (h : Memory.wfFrom lo m = true)
    (h' : Memory.wfFrom lo m' = true) (hr : ∀ a, m.read a = m'.read a) : m = m' := by
  induction m generalizing lo m' with
  | nil =>
    cases m' with
    | nil => rfl
    | cons c r =>
      obtain ⟨x, v⟩ := c
      exact absurd (by simpa [Memory.read] using (hr x).symm) (Memory.wfFrom_cons.1 h').2.1
  | cons c r ih =>
    obtain ⟨x, v⟩ := c
    have hc := Memory.wfFrom_cons.1 h
    cases m' with
    | nil => exact absurd (by simpa [Memory.read] using hr x) hc.2.1
    | cons c' r' =>
      obtain ⟨y, w⟩ := c'
      have hc' := Memory.wfFrom_cons.1 h'
      have hx := hr x
      have hy := hr y
      have hxy : x = y := by
        rcases Nat.lt_trichotomy x y with hlt | heq | hgt
        · rw [Memory.read, if_pos rfl, Memory.read, if_neg (by omega),
            Memory.read_below hc'.2.2 (by omega)] at hx
          exact absurd hx hc.2.1
        · exact heq
        · rw [Memory.read, if_neg (by omega), Memory.read_below hc.2.2 (by omega), Memory.read, if_pos rfl] at hy
          exact absurd hy.symm hc'.2.1
      subst hxy
      simp only [Memory.read, if_true] at hx
      subst hx
      rw [ih hc.2.2 hc'.2.2]
      intro a
      by_cases ha : a < x + 1
      · rw [Memory.read_below hc.2.2 ha, Memory.read_below hc'.2.2 ha]
      · simpa [Memory.read, show ¬x = a by omega] using hr a

end Sys2Proof.Machine
end

