-- ==== Sys2Proof/Laws/State.lean ====
section
/-! SUPPORT. One lemma per field of State per update. -/

namespace Sys2Proof.Machine

/-! ### setOut -/

@[simp] theorem State.setOut_cfg (s : State) (r : TxState) : (s.setOut r).cfg = s.cfg := rfl

@[simp] theorem State.setOut_out (s : State) (r : TxState) : (s.setOut r).out = r := rfl

@[simp] theorem State.setOut_inp (s : State) (r : TxState) : (s.setOut r).inp = s.inp := rfl

@[simp] theorem State.setOut_outMem (s : State) (r : TxState) : (s.setOut r).outMem = s.outMem := rfl

@[simp] theorem State.setOut_inMem (s : State) (r : TxState) : (s.setOut r).inMem = s.inMem := rfl

@[simp] theorem State.setOut_events (s : State) (r : TxState) : (s.setOut r).events = s.events := rfl

@[simp] theorem State.setOut_fault (s : State) (r : TxState) : (s.setOut r).fault = s.fault := rfl

@[simp] theorem State.setOut_responses (s : State) (r : TxState) : (s.setOut r).responses = s.responses := rfl

@[simp] theorem State.setOut_reads (s : State) (r : TxState) : (s.setOut r).reads = s.reads := rfl

@[simp] theorem State.setOut_host (s : State) (r : TxState) : (s.setOut r).host = s.host := rfl

@[simp] theorem State.setOut_pos (s : State) (r : TxState) : (s.setOut r).pos = s.pos := rfl

/-! ### setInp -/

@[simp] theorem State.setInp_cfg (s : State) (r : RxState) : (s.setInp r).cfg = s.cfg := rfl

@[simp] theorem State.setInp_out (s : State) (r : RxState) : (s.setInp r).out = s.out := rfl

@[simp] theorem State.setInp_inp (s : State) (r : RxState) : (s.setInp r).inp = r := rfl

@[simp] theorem State.setInp_outMem (s : State) (r : RxState) : (s.setInp r).outMem = s.outMem := rfl

@[simp] theorem State.setInp_inMem (s : State) (r : RxState) : (s.setInp r).inMem = s.inMem := rfl

@[simp] theorem State.setInp_events (s : State) (r : RxState) : (s.setInp r).events = s.events := rfl

@[simp] theorem State.setInp_fault (s : State) (r : RxState) : (s.setInp r).fault = s.fault := rfl

@[simp] theorem State.setInp_responses (s : State) (r : RxState) : (s.setInp r).responses = s.responses := rfl

@[simp] theorem State.setInp_reads (s : State) (r : RxState) : (s.setInp r).reads = s.reads := rfl

@[simp] theorem State.setInp_host (s : State) (r : RxState) : (s.setInp r).host = s.host := rfl

@[simp] theorem State.setInp_pos (s : State) (r : RxState) : (s.setInp r).pos = s.pos := rfl

/-! ### respond -/

@[simp] theorem State.respond_cfg (s : State) (c : BitVec 4) (n : Nat) : (s.respond c n).cfg = s.cfg := rfl

@[simp] theorem State.respond_out (s : State) (c : BitVec 4) (n : Nat) : (s.respond c n).out = s.out := rfl

@[simp] theorem State.respond_inp (s : State) (c : BitVec 4) (n : Nat) : (s.respond c n).inp = s.inp := rfl

@[simp] theorem State.respond_outMem (s : State) (c : BitVec 4) (n : Nat) : (s.respond c n).outMem = s.outMem := rfl

@[simp] theorem State.respond_inMem (s : State) (c : BitVec 4) (n : Nat) : (s.respond c n).inMem = s.inMem := rfl

@[simp] theorem State.respond_events (s : State) (c : BitVec 4) (n : Nat) : (s.respond c n).events = s.events := rfl

@[simp] theorem State.respond_fault (s : State) (c : BitVec 4) (n : Nat) : (s.respond c n).fault = s.fault := rfl

@[simp] theorem State.respond_responses (s : State) (c : BitVec 4) (n : Nat) :
    (s.respond c n).responses =
      s.responses ++ [{ code := c, count := n }] := rfl

@[simp] theorem State.respond_reads (s : State) (c : BitVec 4) (n : Nat) : (s.respond c n).reads = s.reads := rfl

@[simp] theorem State.respond_host (s : State) (c : BitVec 4) (n : Nat) : (s.respond c n).host = s.host := rfl

@[simp] theorem State.respond_pos (s : State) (c : BitVec 4) (n : Nat) : (s.respond c n).pos = s.pos := rfl

/-! ### complete -/

@[simp] theorem State.complete_cfg (s : State) (n : Nat) : (s.complete n).cfg = s.cfg := rfl

@[simp] theorem State.complete_out (s : State) (n : Nat) : (s.complete n).out = s.out := rfl

@[simp] theorem State.complete_inp (s : State) (n : Nat) : (s.complete n).inp = s.inp := rfl

@[simp] theorem State.complete_outMem (s : State) (n : Nat) : (s.complete n).outMem = s.outMem := rfl

@[simp] theorem State.complete_inMem (s : State) (n : Nat) : (s.complete n).inMem = s.inMem := rfl

@[simp] theorem State.complete_events (s : State) (n : Nat) :
    (s.complete n).events =
      if s.cfg.cbPresent then s.events ++ [{ closure := s.cfg.closure, count := n }] else s.events := rfl

@[simp] theorem State.complete_fault (s : State) (n : Nat) : (s.complete n).fault = s.fault := rfl

@[simp] theorem State.complete_responses (s : State) (n : Nat) : (s.complete n).responses = s.responses := rfl

@[simp] theorem State.complete_reads (s : State) (n : Nat) : (s.complete n).reads = s.reads := rfl

@[simp] theorem State.complete_host (s : State) (n : Nat) : (s.complete n).host = s.host := rfl

@[simp] theorem State.complete_pos (s : State) (n : Nat) : (s.complete n).pos = s.pos := rfl

/-! ### raise -/

@[simp] theorem State.raise_cfg (s : State) (k : FaultKind) : (s.raise k).cfg = s.cfg := rfl

@[simp] theorem State.raise_out (s : State) (k : FaultKind) : (s.raise k).out = s.out := rfl

@[simp] theorem State.raise_inp (s : State) (k : FaultKind) : (s.raise k).inp = s.inp := rfl

@[simp] theorem State.raise_outMem (s : State) (k : FaultKind) : (s.raise k).outMem = s.outMem := rfl

@[simp] theorem State.raise_inMem (s : State) (k : FaultKind) : (s.raise k).inMem = s.inMem := rfl

@[simp] theorem State.raise_events (s : State) (k : FaultKind) : (s.raise k).events = s.events := rfl

@[simp] theorem State.raise_fault (s : State) (k : FaultKind) :
    (s.raise k).fault =
      match s.fault with | none => some k | some k' => some k' := rfl

@[simp] theorem State.raise_responses (s : State) (k : FaultKind) : (s.raise k).responses = s.responses := rfl

@[simp] theorem State.raise_reads (s : State) (k : FaultKind) : (s.raise k).reads = s.reads := rfl

@[simp] theorem State.raise_host (s : State) (k : FaultKind) : (s.raise k).host = s.host := rfl

@[simp] theorem State.raise_pos (s : State) (k : FaultKind) : (s.raise k).pos = s.pos := rfl

/-! ### consume -/

@[simp] theorem State.consume_cfg (s : State) (n : Nat) : (s.consume n).cfg = s.cfg := rfl

@[simp] theorem State.consume_out (s : State) (n : Nat) : (s.consume n).out = s.out := rfl

@[simp] theorem State.consume_inp (s : State) (n : Nat) : (s.consume n).inp = s.inp := rfl

@[simp] theorem State.consume_outMem (s : State) (n : Nat) : (s.consume n).outMem = s.outMem := rfl

@[simp] theorem State.consume_inMem (s : State) (n : Nat) : (s.consume n).inMem = s.inMem := rfl

@[simp] theorem State.consume_events (s : State) (n : Nat) : (s.consume n).events = s.events := rfl

@[simp] theorem State.consume_fault (s : State) (n : Nat) : (s.consume n).fault = s.fault := rfl

@[simp] theorem State.consume_responses (s : State) (n : Nat) : (s.consume n).responses = s.responses := rfl

@[simp] theorem State.consume_reads (s : State) (n : Nat) : (s.consume n).reads = s.reads := rfl

@[simp] theorem State.consume_host (s : State) (n : Nat) : (s.consume n).host = s.host.drop n := rfl

@[simp] theorem State.consume_pos (s : State) (n : Nat) : (s.consume n).pos = s.pos + n := rfl

/-! ### setMem -/

@[simp] theorem State.setMem_cfg (s : State) (sp : Space) (m : Memory) : (s.setMem sp m).cfg = s.cfg := by
  cases sp <;> rfl

@[simp] theorem State.setMem_out (s : State) (sp : Space) (m : Memory) : (s.setMem sp m).out = s.out := by
  cases sp <;> rfl

@[simp] theorem State.setMem_inp (s : State) (sp : Space) (m : Memory) : (s.setMem sp m).inp = s.inp := by
  cases sp <;> rfl

@[simp] theorem State.setMem_events (s : State) (sp : Space) (m : Memory) : (s.setMem sp m).events = s.events := by
  cases sp <;> rfl

@[simp] theorem State.setMem_fault (s : State) (sp : Space) (m : Memory) : (s.setMem sp m).fault = s.fault := by
  cases sp <;> rfl

@[simp] theorem State.setMem_responses (s : State) (sp : Space) (m : Memory) : (s.setMem sp m).responses = s.responses := by
  cases sp <;> rfl

@[simp] theorem State.setMem_reads (s : State) (sp : Space) (m : Memory) : (s.setMem sp m).reads = s.reads := by
  cases sp <;> rfl

@[simp] theorem State.setMem_host (s : State) (sp : Space) (m : Memory) : (s.setMem sp m).host = s.host := by
  cases sp <;> rfl

@[simp] theorem State.setMem_pos (s : State) (sp : Space) (m : Memory) : (s.setMem sp m).pos = s.pos := by
  cases sp <;> rfl

@[simp] theorem State.setMem_out_outMem (s : State) (m : Memory) : (s.setMem .out m).outMem = m := rfl

@[simp] theorem State.setMem_out_inMem (s : State) (m : Memory) : (s.setMem .out m).inMem = s.inMem := rfl

@[simp] theorem State.mem_out (s : State) : s.mem .out = s.outMem := rfl

@[simp] theorem State.setMem_inp_inMem (s : State) (m : Memory) : (s.setMem .inp m).inMem = m := rfl

@[simp] theorem State.setMem_inp_outMem (s : State) (m : Memory) : (s.setMem .inp m).outMem = s.outMem := rfl

@[simp] theorem State.mem_inp (s : State) : s.mem .inp = s.inMem := rfl

@[simp] theorem State.setMem_mem (s : State) (sp : Space) (m : Memory) : (s.setMem sp m).mem sp = m := by
  cases sp <;> rfl

theorem State.setMem_setMem (s : State) (sp : Space) (m m' : Memory) : (s.setMem sp m).setMem sp m' = s.setMem sp m' := by
  cases sp <;> rfl

@[simp] theorem State.setMem_self (s : State) (sp : Space) : s.setMem sp (s.mem sp) = s := by
  cases sp <;> rfl

theorem State.raise_of_none {s : State} (h : s.fault = none) (k : FaultKind) : s.raise k = { s with fault := some k } := by
  simp [State.raise, h]

end Sys2Proof.Machine
end

