-- ==== Sys2Proof/Laws/Ops.lean ====
section
/-! SUPPORT. For each shared operation, everything it can do. -/

namespace Sys2Proof.Machine

/-! ### The guard -/

/-- An operation answers a next state exactly on a block that exists and has recorded no fault. -/
theorem operate_eq_next {s t : State} {r : Result} :
    operate s r = .next t ↔ (s.cfg.valid = true ∧ s.fault = none) ∧ r = .next t := by
  unfold operate withBlock
  cases s.fault <;> by_cases h : s.cfg.valid = true <;> simp [h]

theorem operate_live {s : State} {r : Result} (hv : s.cfg.valid = true) (hf : s.fault = none) : operate s r = r := by
  simp [operate, withBlock, hv, hf]

theorem operate_faulted {s : State} {r : Result} {k : FaultKind} (hv : s.cfg.valid = true) (hf : s.fault = some k) :
    operate s r = .fault (.quiescent k) := by
  simp [operate, withBlock, hv, hf]

theorem operate_invalid {s : State} {r : Result} (hv : s.cfg.valid = false) : operate s r = .refused .invalidConfig := by
  simp [operate, withBlock, hv]

theorem withBlock_eq_next {s t : State} {r : Result} :
    withBlock s r = .next t ↔ s.cfg.valid = true ∧ r = .next t := by
  unfold withBlock
  by_cases h : s.cfg.valid = true <;> simp [h]

/-- The guard asks only for the configuration and the fault record. -/
theorem operate_congr {s s' : State} {r : Result} (hv : s.cfg.valid = s'.cfg.valid) (hf : s.fault = s'.fault) :
    operate s r = operate s' r := by
  simp [operate, withBlock, hv, hf]

theorem operate_operate {s s' : State} {r : Result} (hv : s.cfg.valid = s'.cfg.valid) (hf : s.fault = s'.fault) :
    operate s (operate s' r) = operate s' r := by
  rw [operate_congr hv hf]
  unfold operate withBlock
  cases s'.fault <;> by_cases h : s'.cfg.valid = true <;> simp [h]

/-! ### Memory accesses -/

theorem State.memRead_in {s : State} {sp : Space} {a : Nat} (h : a < s.cfg.cap sp) :
    s.memRead sp a = some ((s.mem sp).read a) := by
  simp [State.memRead, h]

theorem State.memRead_out_of_range {s : State} {sp : Space} {a : Nat} (h : s.cfg.cap sp ≤ a) :
    s.memRead sp a = none := by
  simp [State.memRead, h]

theorem State.memWrite_in {s : State} {sp : Space} {a : Nat} (h : a < s.cfg.cap sp) (v : Byte) :
    s.memWrite sp a v = .ok (s.setMem sp ((s.mem sp).write a v)) := by
  simp [State.memWrite, h]

theorem State.memWrite_out_of_range {s : State} {sp : Space} {a : Nat} (h : s.cfg.cap sp ≤ a) (v : Byte) :
    s.memWrite sp a v = .error (s.raise .memRange) := by
  simp [State.memWrite, h]

/-- The memory that writes of consecutive bytes leave. -/
def Memory.writeSeq (m : Memory) (a : Nat) : List Byte → Memory
  | [] => m
  | v :: r => Memory.writeSeq (m.write a v) (a + 1) r

/-- Writes of consecutive bytes in range complete, and change one memory only. -/
theorem State.memWriteSeq_in {s : State} {sp : Space} {a : Nat} {p : List Byte} (h : a + p.length ≤ s.cfg.cap sp) :
    s.memWriteSeq sp a p = .ok (s.setMem sp ((s.mem sp).writeSeq a p)) := by
  induction p generalizing s a with
  | nil => simp [State.memWriteSeq, Memory.writeSeq]
  | cons v r ih =>
    simp only [List.length_cons] at h
    rw [State.memWriteSeq, State.memWrite_in (by omega)]
    simp only
    rw [ih (by simp; omega)]
    simp [State.setMem_setMem, Memory.writeSeq]

theorem Memory.writeSeq_wf {m : Memory} (h : m.wf = true) (a : Nat) (p : List Byte) : (m.writeSeq a p).wf = true := by
  induction p generalizing m a with
  | nil => exact h
  | cons v r ih => exact ih (Memory.write_wf h a v) (a + 1)

theorem Memory.writeSeq_within {cap : Nat} {m : Memory} (h : Memory.within cap m = true) {a : Nat} {p : List Byte}
    (hp : a + p.length ≤ cap) : Memory.within cap (m.writeSeq a p) = true := by
  induction p generalizing m a with
  | nil => exact h
  | cons v r ih =>
    simp only [List.length_cons] at hp
    exact ih (Memory.write_within h (by omega) v) (by omega)

/-- Each address of the run reads its byte, and every other reads as before. -/
theorem Memory.read_writeSeq {m : Memory} (h : m.wf = true) (a : Nat) (p : List Byte) (x : Nat) :
    (m.writeSeq a p).read x = if a ≤ x ∧ x < a + p.length then p.getD (x - a) 0 else m.read x := by
  induction p generalizing m a with
  | nil => simp [Memory.writeSeq]
  | cons v r ih =>
    rw [Memory.writeSeq, ih (Memory.write_wf h a v), Memory.read_write h]
    rcases Nat.lt_trichotomy x a with hlt | heq | hgt
    · simp [show ¬a + 1 ≤ x by omega, show ¬a ≤ x by omega, show x ≠ a by omega]
    · subst heq; simp
    · have : x - a = (x - (a + 1)) + 1 := by omega
      simp only [List.length_cons, show a + 1 ≤ x by omega, show a ≤ x by omega, show x ≠ a by omega, true_and,
        if_false, this, List.getD_cons_succ]
      congr 1
      simp
      omega

/-- The clear of 42_receive.md R142 always completes: its addresses are in range by construction. -/
theorem State.clearIn_eq (s : State) :
    s.clearIn = .ok (s.setMem .inp (s.inMem.writeSeq 0 (List.replicate s.cfg.inCap 0x00))) := by
  rw [State.clearIn, State.memWriteSeq_in (by simp [Config.cap])]
  rfl

/-! ### READ_SINK's parts -/

/-- The frame start: the byte index, the cleared buffer, then StartBitCase(0). -/
theorem startFrame_eq (s : State) :
    startFrame s = startBitCase .low ((s.setInp { s.inp with i := 0 }).setMem .inp
      (s.inMem.writeSeq 0 (List.replicate s.cfg.inCap 0x00))) := by
  rw [startFrame, State.clearIn_eq]
  rfl

theorem orIntoByte_low (s : State) : orIntoByte .low s = .ok s := rfl

theorem orIntoByte_high_in {s : State} (h : s.inp.i < s.cfg.inCap) :
    orIntoByte .high s = .ok (s.setMem .inp (s.inMem.write s.inp.i (s.inMem.read s.inp.i ||| s.inp.mask))) := by
  rw [orIntoByte, State.memRead_in (by simpa [Config.cap] using h)]
  exact State.memWrite_in (by simpa [Config.cap] using h) _

theorem orIntoByte_high_out_of_range {s : State} (h : s.cfg.inCap ≤ s.inp.i) :
    orIntoByte .high s = .error (s.raise .memRange) := by
  rw [orIntoByte, State.memRead_out_of_range (by simpa [Config.cap] using h)]

end Sys2Proof.Machine
end

