-- ==== Sys2Proof/Laws/Exec.lean ====
section
/-! SUPPORT. What each operation and each step can do, said once. -/

namespace Sys2Proof.Machine

@[simp] theorem execAll_nil (s : State) : execAll [] s = .next s := rfl

theorem execAll_cons {i : Instr} {r : List Instr} {s t : State} (h : exec i s = .next t) :
    execAll (i :: r) s = execAll r t := by
  simp [execAll, h]

theorem execAll_append {l r : List Instr} {s t : State} (h : execAll l s = .next t) :
    execAll (l ++ r) s = execAll r t := by
  induction l generalizing s with
  | nil => cases h; rfl
  | cons i l ih =>
    cases he : exec i s with
    | next u =>
      rw [execAll_cons he] at h
      rw [List.cons_append, execAll_cons he]
      exact ih h
    | fault k => simp [execAll, he] at h
    | refused k => simp [execAll, he] at h

/-- Being live depends on the configuration and the fault record only. -/
theorem State.live_of_eq {s t : State} (hc : t.cfg = s.cfg) (hf : t.fault = s.fault) (h : s.live) : t.live := by
  rw [State.live, hc, hf]
  exact h

/-- The state a command leaves on a live block; the cases are those of its rule. -/
def execState : Instr → State → State
  | .init, s => ((s.setOut { mode := .done, i := 0, mask := firstMask, len := 0 }).setInp
      { mode := .done, i := 0, mask := firstMask }).respond (boolCode true) 0
  | .writeEnqueue p, s =>
    if s.out.mode ≠ .done then s.respond EnqueueResult.errorBusy.code 0
    else if s.cfg.outCap < p.length then s.respond EnqueueResult.errorTooLarge.code 0
    else ((s.setMem .out (s.outMem.writeSeq 0 p)).setOut
      { mode := .startBit, i := 0, mask := firstMask, len := p.length }).respond EnqueueResult.ok.code 0
  | .writeBusy, s => s.respond (boolCode s.busy) 0
  | .writeAbort, s => (s.setOut { s.out with mode := .done }).respond (boolCode true) 0
  | .writeStep, s =>
    match s.out.mode with
    | .done => s.respond StepResult.high.code 0
    | .startBit => (s.setOut { s.out with mode := .bits }).respond StepResult.low.code 0
    | .bits => sendDataBit s
    | .stopBit => (s.setOut (afterStopBit s.out)).respond StepResult.high.code 0
  | .readSink b, s =>
    match s.inp.mode, b with
    | .done, .high => s.respond SinkResult.ok.code 0
    | .done, .low => startFrame s
    | .startBit, b => startBitCase b s
    | .bits, b => takeDataBit b s
    | .stopBit, b => takeStopBit b s

theorem exec_eq_operate (i : Instr) (s : State) : exec i s = operate s (.next (execState i s)) := by
  cases i with
  | init => rfl
  | writeBusy => rfl
  | writeAbort => rfl
  | writeEnqueue p =>
    simp only [exec, execWriteEnqueue, execState]
    split_ifs with h1 h2
    · rfl
    · rfl
    · rw [State.memWriteSeq_in (by simpa [Config.cap] using Nat.le_of_not_lt h2)]
      rfl
  | writeStep => simp only [exec, execWriteStep, execState]; cases s.out.mode <;> rfl
  | readSink b => simp only [exec, execReadSink, execState]; cases s.inp.mode <;> cases b <;> rfl

/-- A command answers a next state exactly on a live block, and it is the one its rule gives. -/
theorem exec_eq_next {i : Instr} {s t : State} :
    exec i s = .next t ↔ (s.cfg.valid = true ∧ s.fault = none) ∧ execState i s = t := by
  rw [exec_eq_operate, operate_eq_next]
  simp

theorem exec_of_live {s : State} (h : s.live) (i : Instr) : exec i s = .next (execState i s) :=
  exec_eq_next.2 ⟨h, rfl⟩

/-- Everything a step that answers a next state can have done: a host access, nothing, or one command. -/
theorem step_cases {s t : State} (h : step s = .next t) : s.cfg.valid = true ∧
    ((∃ sp a v rest, s.host = .write sp a v :: rest ∧ a < s.cfg.cap sp ∧
        t = { s.setMem sp ((s.mem sp).write a v) with host := rest }) ∨
     (∃ sp a rest, s.host = .read sp a :: rest ∧ a < s.cfg.cap sp ∧
        t = { s with reads := s.reads ++ [⟨sp, a, (s.mem sp).read a⟩], host := rest }) ∨
     (s.host = [] ∧ s.fault = none ∧ t = s) ∨
     (∃ i rest, s.fault = none ∧ s.fetch = .ok i rest ∧
        exec i (s.consume (encodedLength s.cfg.idxW i)) = .next t)) := by
  unfold step at h
  split at h
  · obtain ⟨⟨hv, hf⟩, he⟩ := operate_eq_next.1 h
    cases he
    exact ⟨hv, .inr (.inr (.inl ⟨‹_›, hf, rfl⟩))⟩
  · obtain ⟨⟨hv, hf⟩, he⟩ := operate_eq_next.1 h
    split at he
    · exact ⟨hv, .inr (.inr (.inr ⟨_, _, hf, ‹_›, he⟩))⟩
    · cases he
    · cases he
  · obtain ⟨hv, he⟩ := withBlock_eq_next.1 h
    split at he
    · cases he
      exact ⟨hv, .inl ⟨_, _, _, _, ‹_›, ‹_›, rfl⟩⟩
    · cases he
  · obtain ⟨hv, he⟩ := withBlock_eq_next.1 h
    split at he
    · cases he
      exact ⟨hv, .inr (.inl ⟨_, _, _, ‹_›, ‹_›, rfl⟩)⟩
    · cases he

end Sys2Proof.Machine
end

