-- ==== Sys2Proof/Laws/Cases.lean ====
section
/-! SUPPORT. One inversion per command: the cases of its rule, each with the condition it holds under and the state
it leaves, written out. -/

namespace Sys2Proof.Machine

/-- `in_mem` after a high sample in `Bits` (42_receive.md R147). -/
def orMem (b : Level) (s : State) : Memory :=
  match b with
  | .low => s.inMem
  | .high => s.inMem.write s.inp.i (s.inMem.read s.inp.i ||| s.inp.mask)

/-- `in_mem` after the clear of 42_receive.md R142. -/
def cleared (s : State) : Memory := s.inMem.writeSeq 0 (List.replicate s.cfg.inCap 0x00)

/-- The cases of READ_SINK (42_receive.md R141 to R149, 20_memory.md R56). -/
inductive SinkCase (b : Level) (s : State) : State → Prop
  | idle : s.inp.mode = .done → b = .high →
      SinkCase b s { s with responses := s.responses ++ [⟨0#4, 0⟩] }
  | noRoom : s.inp.mode = .done → b = .low → s.cfg.inCap = 0 →
      SinkCase b s { s with
        inp := ⟨.done, 0, s.inp.mask⟩, inMem := cleared s, responses := s.responses ++ [⟨3#4, 0⟩] }
  | start : s.inp.mode = .done → b = .low → 0 < s.cfg.inCap →
      SinkCase b s { s with
        inp := ⟨.bits, 0, 1#8⟩, inMem := cleared s, responses := s.responses ++ [⟨0#4, 0⟩] }
  | message : s.inp.mode = .startBit → b = .high → 1 ≤ s.inp.i →
      SinkCase b s { s with
        inp := { s.inp with mode := .done }
        events := if s.cfg.cbPresent then s.events ++ [⟨s.cfg.closure, s.inp.i⟩] else s.events
        responses := s.responses ++ [⟨1#4, s.inp.i⟩] }
  | noByte : s.inp.mode = .startBit → b = .high → s.inp.i = 0 →
      SinkCase b s { s with responses := s.responses ++ [⟨0#4, 0⟩] }
  | full : s.inp.mode = .startBit → b = .low → s.cfg.inCap ≤ s.inp.i →
      SinkCase b s { s with inp := { s.inp with mode := .done }, responses := s.responses ++ [⟨3#4, 0⟩] }
  | nextByte : s.inp.mode = .startBit → b = .low → s.inp.i < s.cfg.inCap →
      SinkCase b s { s with inp := ⟨.bits, s.inp.i, 1#8⟩, responses := s.responses ++ [⟨0#4, 0⟩] }
  | range : s.inp.mode = .bits → b = .high → s.cfg.inCap ≤ s.inp.i →
      SinkCase b s (s.raise .memRange)
  | data : s.inp.mode = .bits → (b = .high → s.inp.i < s.cfg.inCap) →
      SinkCase b s { s with
        inp := ⟨if s.inp.mask = 0x80#8 then .stopBit else .bits, s.inp.i,
          (s.inp.mask <<< 1) ||| (s.inp.mask >>> 7)⟩
        inMem := orMem b s
        responses := s.responses ++ [⟨0#4, 0⟩] }
  | goodStop : s.inp.mode = .stopBit → b = .high →
      SinkCase b s { s with
        inp := { s.inp with mode := .startBit, i := s.inp.i + 1 }, responses := s.responses ++ [⟨0#4, 0⟩] }
  | badStop : s.inp.mode = .stopBit → b = .low →
      SinkCase b s { s with inp := { s.inp with mode := .done }, responses := s.responses ++ [⟨4#4, 0⟩] }

theorem execState_readSink_cases (b : Level) (s : State) : SinkCase b s (execState (.readSink b) s) := by
  cases hm : s.inp.mode <;> cases b <;> simp only [execState, hm]
  · rw [startFrame_eq]
    by_cases hc : s.cfg.inCap = 0
    · convert SinkCase.noRoom hm rfl hc using 1
      simp [startBitCase, hc, State.respond, SinkResult.code, State.setInp, State.setMem, cleared,
        State.inpDone, hm]
    · convert SinkCase.start hm rfl (by omega) using 1
      simp [startBitCase, hc, State.respond, SinkResult.code, State.setInp, State.setMem, cleared, firstMask]
  · exact SinkCase.idle hm rfl
  · by_cases hc : s.cfg.inCap ≤ s.inp.i
    · convert SinkCase.full hm rfl hc using 1
      simp [startBitCase, hc, State.respond, SinkResult.code, State.setInp, State.inpDone]
    · convert SinkCase.nextByte hm rfl (by omega) using 1
      simp [startBitCase, hc, State.respond, SinkResult.code, State.setInp, firstMask]
  · by_cases hc : 1 ≤ s.inp.i
    · convert SinkCase.message hm rfl hc using 1
      simp [startBitCase, hc, State.respond, SinkResult.code, State.setInp, State.inpDone, State.complete]
    · rw [startBitCase, if_neg hc]
      exact SinkCase.noByte hm rfl (by omega)
  · convert SinkCase.data (b := .low) hm (fun h => nomatch h) using 1
    simp [takeDataBit, orIntoByte_low, State.respond, SinkResult.code, State.setInp, afterSample, rotl8,
      lastMask, orMem, hm]
  · by_cases hc : s.inp.i < s.cfg.inCap
    · convert SinkCase.data hm (fun _ => hc) using 1
      simp [takeDataBit, orIntoByte_high_in hc, State.respond, SinkResult.code, State.setInp, afterSample,
        rotl8, lastMask, orMem, hm, State.setMem]
    · convert SinkCase.range hm rfl (Nat.le_of_not_lt hc) using 1
      simp [takeDataBit, orIntoByte_high_out_of_range (Nat.le_of_not_lt hc)]
  · exact SinkCase.badStop hm rfl
  · exact SinkCase.goodStop hm rfl


/-- The cases of WRITE_STEP (41_transmit.md R112 to R116, 20_memory.md R56). -/
inductive StepCase (s : State) : State → Prop
  | idle : s.out.mode = .done → StepCase s { s with responses := s.responses ++ [⟨1#4, 0⟩] }
  | start : s.out.mode = .startBit → StepCase s { s with
      out := { s.out with mode := .bits }, responses := s.responses ++ [⟨0#4, 0⟩] }
  | empty : s.out.mode = .bits → s.out.len ≤ s.out.i → StepCase s (s.raise .txEmptyMessage)
  | range : s.out.mode = .bits → s.out.i < s.out.len → s.cfg.outCap ≤ s.out.i → StepCase s (s.raise .memRange)
  | data : s.out.mode = .bits → s.out.i < s.out.len → s.out.i < s.cfg.outCap → StepCase s { s with
     out := if s.out.mask = 0x80#8 then { s.out with mode := .stopBit, i := s.out.i + 1 }
        else { s.out with mask := s.out.mask <<< 1 }
     responses := s.responses ++ [⟨if s.outMem.read s.out.i &&& s.out.mask = 0 then 0#4 else 1#4, 0⟩] }
  | final : s.out.mode = .stopBit → s.out.i = s.out.len → StepCase s { s with
      out := { s.out with mode := .done }, responses := s.responses ++ [⟨1#4, 0⟩] }
  | again : s.out.mode = .stopBit → s.out.i ≠ s.out.len → StepCase s { s with
      out := { s.out with mode := .startBit, mask := 1#8 }, responses := s.responses ++ [⟨1#4, 0⟩] }

theorem execState_writeStep_cases (s : State) : StepCase s (execState .writeStep s) := by
  cases hm : s.out.mode <;> simp only [execState, hm]
  · exact .idle hm
  · exact .start hm
  · unfold sendDataBit
    split_ifs with hl
    · exact .empty hm hl
    · by_cases hc : s.out.i < s.cfg.outCap
      · rw [State.memRead_in (s := s) (sp := .out) hc]
        convert StepCase.data hm (by omega) hc using 1
        simp only [State.mem_out, dataLevel]
        by_cases c1 : s.out.mask = 0x80#8 <;> by_cases c2 : s.outMem.read s.out.i &&& s.out.mask = 0 <;>
          simp [State.respond, State.setOut, afterDataBit, lastMask, shiftMask, c1, c2, resultOfLevel,
            StepResult.code, hm] <;> simp_all
      · rw [State.memRead_out_of_range (s := s) (sp := .out) (Nat.le_of_not_lt hc)]
        exact .range hm (by omega) (by omega)
  · unfold afterStopBit
    split_ifs with h
    · exact .final hm h
    · exact .again hm h

/-- The cases of WRITE_ENQUEUE (41_transmit.md R110). -/
inductive EnqCase (p : List Byte) (s : State) : State → Prop
  | busy : s.out.mode ≠ .done → EnqCase p s { s with responses := s.responses ++ [⟨3#4, 0⟩] }
  | large : s.out.mode = .done → s.cfg.outCap < p.length → EnqCase p s { s with
      responses := s.responses ++ [⟨2#4, 0⟩] }
  | ok : s.out.mode = .done → p.length ≤ s.cfg.outCap → EnqCase p s { s with
      out := ⟨.startBit, 0, 1#8, p.length⟩, outMem := s.outMem.writeSeq 0 p, responses := s.responses ++ [⟨0#4, 0⟩] }

theorem execState_writeEnqueue_cases (p : List Byte) (s : State) : EnqCase p s (execState (.writeEnqueue p) s) := by
  simp only [execState]
  split_ifs with h1 h2
  · exact .busy h1
  · exact .large (by simpa using h1) h2
  · exact .ok (by simpa using h1) (by omega)


/-- The cases of every command. -/
inductive ExecCase : Instr → State → State → Prop
  | init (s) : ExecCase .init s { s with
      out := ⟨.done, 0, 1#8, 0⟩, inp := ⟨.done, 0, 1#8⟩, responses := s.responses ++ [⟨1#4, 0⟩] }
  | busy (s) : ExecCase .writeBusy s { s with responses := s.responses ++ [⟨boolCode s.busy, 0⟩] }
  | abort (s) : ExecCase .writeAbort s { s with
      out := { s.out with mode := .done }, responses := s.responses ++ [⟨1#4, 0⟩] }
  | enq {p s t} : EnqCase p s t → ExecCase (.writeEnqueue p) s t
  | step {s t} : StepCase s t → ExecCase .writeStep s t
  | sink {b s t} : SinkCase b s t → ExecCase (.readSink b) s t

/-- Everything a command that answers a next state can have done. -/
theorem exec_cases {i : Instr} {s t : State} (h : exec i s = .next t) : s.live ∧ ExecCase i s t := by
  obtain ⟨hl, rfl⟩ := exec_eq_next.1 h
  refine ⟨hl, ?_⟩
  cases i with
  | init => exact .init s
  | writeBusy => exact .busy s
  | writeAbort => exact .abort s
  | writeEnqueue p => exact .enq (execState_writeEnqueue_cases p s)
  | writeStep => exact .step (execState_writeStep_cases s)
  | readSink b => exact .sink (execState_readSink_cases b s)


end Sys2Proof.Machine
end

