-- ==== Sys2Proof/Laws/Decode.lean ====
section
/-! SUPPORT. The decoder's parts: the command byte's fields, the LEN field's byte order, and the opcode table. -/

namespace Sys2Proof.Machine

@[simp] theorem leBytes_length (n v : Nat) : (leBytes n v).length = n := by
  induction n generalizing v with
  | zero => rfl
  | succ n ih => simp [leBytes, ih]

/-- The number that a number's `n` low bytes stand for. -/
theorem leValue_leBytes (n v : Nat) : leValue (leBytes n v) = v % 256 ^ n := by
  induction n generalizing v with
  | zero => simp [leBytes, leValue, Nat.mod_one]
  | succ n ih =>
    rw [leBytes, leValue, ih, pow_succ, mul_comm (256 ^ n) 256, Nat.mod_mul]
    simp

/-- Bytes are the bytes of the number they stand for. -/
theorem leBytes_leValue (bs : List Byte) : leBytes bs.length (leValue bs) = bs := by
  induction bs with
  | nil => rfl
  | cons b r ih =>
    have h := b.isLt
    rw [List.length_cons, leBytes, leValue, show (b.toNat + 256 * leValue r) / 256 = leValue r by omega, ih]
    congr 1
    apply BitVec.eq_of_toNat_eq
    simp
    omega

/-- LEN holds every number of IDX_W bits (30_encoding.md R74). -/
theorem pow_idxW_le (idxW : Nat) : 2 ^ idxW ≤ 256 ^ lenBytes idxW := by
  rw [show (256 : Nat) = 2 ^ 8 from rfl, ← pow_mul]
  exact Nat.pow_le_pow_right (by omega) (by unfold lenBytes; omega)

/-- The three fields read back from the command byte made of them (30_encoding.md R71). -/
theorem fields_cmdByte (op : BitVec 3) (rsv : BitVec 4) (b : BitVec 1) :
    opField (cmdByte op rsv b) = op ∧ rsvField (cmdByte op rsv b) = rsv ∧ bField (cmdByte op rsv b) = b := by
  revert op rsv b
  decide

/-- A command byte is its three fields (30_encoding.md R71). -/
theorem cmdByte_fields (c : Byte) : cmdByte (opField c) (rsvField c) (bField c) = c := by
  revert c
  decide

theorem opOfField_fieldOfOp (op : Op) : opOfField (fieldOfOp op) = some op := by
  cases op <;> rfl

theorem fieldOfOp_of_opOfField {f : BitVec 3} {op : Op} (h : opOfField f = some op) : fieldOfOp op = f := by
  revert f op
  decide

/-- A row of spec/opcode_table.json: mask, match and operation. -/
structure OpcodeRow where
  mask : Byte
  value : Byte
  op : Op
  deriving DecidableEq, Repr

/-- spec/opcode_table.json. -/
def opcodeRows : List OpcodeRow :=
  [⟨0xFF#8, 0x20#8, .init⟩, ⟨0xFF#8, 0x40#8, .writeEnqueue⟩, ⟨0xFF#8, 0x60#8, .writeBusy⟩,
    ⟨0xFF#8, 0x80#8, .writeAbort⟩, ⟨0xFF#8, 0xA0#8, .writeStep⟩, ⟨0xFE#8, 0xC0#8, .readSink⟩]

/-- No two rows of the opcode table match one command byte. -/
theorem opcodeRows_disjoint :
    opcodeRows.Pairwise (fun a b => a.value &&& (a.mask &&& b.mask) ≠ b.value &&& (a.mask &&& b.mask)) := by
  decide

/-- The decoder's checks on a command byte select exactly the row of the opcode table that matches it. -/
theorem opcodeRows_agree (c : Byte) :
    opcodeRows.find? (fun r => c &&& r.mask == r.value) =
      (match opOfField (opField c) with
        | none => none
        | some op =>
          if rsvField c ≠ 0#4 then none
          else if op ≠ .readSink ∧ bField c = 1#1 then none
          else opcodeRows.find? (fun r => r.op == op)) := by
  revert c
  decide

theorem decode_nil (idxW : Nat) : decode idxW [] = .truncated := rfl

theorem decode_cons (idxW : Nat) (c : Byte) (r : List Byte) :
    decode idxW (c :: r) =
      match opOfField (opField c) with
      | none => .illegal .reservedOp
      | some op =>
        if rsvField c ≠ 0#4 then .illegal .reservedBits
        else if op ≠ .readSink ∧ bField c = 1#1 then .illegal .strayBit
        else decodeOperands idxW op c r := rfl

@[simp] theorem levelOfBit_bitOfLevel (b : Level) : levelOfBit (bitOfLevel b) = b := by cases b <;> rfl

@[simp] theorem bitOfLevel_levelOfBit (b : BitVec 1) : bitOfLevel (levelOfBit b) = b := by
  revert b
  decide

end Sys2Proof.Machine
end

