-- ==== Sys2Proof/Laws/PerInstr.lean ====
section
/-! SUPPORT. Statements about every command as syntax, one lemma per constructor: how many bytes its encoding has. -/

namespace Sys2Proof.Laws.EncodedBytes

/-- 30_encoding.md R72 to R74: the encoding has the number of bytes that its format gives, and begins with a command
byte whose RSV field is 0. -/
def Statement (i : Instr) : Prop :=
  ∀ idxW : Nat, (encode idxW i).length = encodedLength idxW i ∧
    ∃ c r, encode idxW i = c :: r ∧ Machine.rsvField c = 0#4

theorem init : Statement .init := fun _ => ⟨rfl, _, _, rfl, by decide⟩

theorem writeEnqueue (p : List Byte) : Statement (.writeEnqueue p) := fun _ =>
  ⟨by simp [encode, encodedLength]; omega, _, _, rfl, by decide⟩

theorem writeBusy : Statement .writeBusy := fun _ => ⟨rfl, _, _, rfl, by decide⟩

theorem writeAbort : Statement .writeAbort := fun _ => ⟨rfl, _, _, rfl, by decide⟩

theorem writeStep : Statement .writeStep := fun _ => ⟨rfl, _, _, rfl, by decide⟩

theorem readSink (b : Level) : Statement (.readSink b) := fun _ => ⟨rfl, _, _, rfl, by cases b <;> decide⟩

end Sys2Proof.Laws.EncodedBytes
end

