-- ==== Sys2Proof/Tests/Slice0.lean ====
section
/-! SUPPORT. The model's own tests: the well-formedness check, words written out from 30_encoding.md, vectors of
95_test_vectors.md, and for each statement a state that meets its hypotheses. -/

namespace Sys2Proof.Tests

open Sys2Proof.Machine

/-! ### States -/

/-- The configuration of most vectors: OUT_CAP = IN_CAP = 2, a callback with closure code 0, IDX_W = 8. -/
def cfg2 : Config :=
  { inPresent := true, inCap := 2, outPresent := true, outCap := 2, cbPresent := true, closure := Config.someClosure, idxW := 8 }

/-- No buffers: 95_test_vectors.md program P6. -/
def cfg0 : Config :=
  { inPresent := false, inCap := 0, outPresent := false, outCap := 0, cbPresent := true, closure := Config.someClosure, idxW := 8 }

/-- A block of `cfg2` at power-on. -/
def base : State := State.powerOn cfg2 [] [] []

/-- A block of `cfg0` at power-on. -/
def bare : State := State.powerOn cfg0 [] [] []

/-- A block with given transmit registers and output buffer. -/
def tx (m : Mode) (i : Nat) (mask : Byte) (len : Nat) (mem : Memory) : State :=
  { base with out := ⟨m, i, mask, len⟩, outMem := mem }

/-- A block with given receive registers and input buffer. -/
def rx (m : Mode) (i : Nat) (mask : Byte) (mem : Memory) : State :=
  { base with inp := ⟨m, i, mask⟩, inMem := mem }

/-- A block whose host has given moves pending. -/
def hosted (moves : List HostMove) : State := { base with host := moves }

/-- What a test checks of an outcome: the last response and the registers. -/
def seen (o : Host.Outcome State Fault Refusal) : Option (Option Response × TxState × RxState) :=
  match o with
  | .next t => some (t.responses.getLast?, t.out, t.inp)
  | .fault _ => none
  | .refused _ => none

/-- The two buffers and the event history of an outcome. -/
def kept (o : Host.Outcome State Fault Refusal) : Option (Memory × Memory × List MsgEvent × Option FaultKind) :=
  match o with
  | .next t => some (t.outMem, t.inMem, t.events, t.fault)
  | .fault _ => none
  | .refused _ => none

/-! ### WellFormed -/

/-- 30_encoding.md R74: a message too long for LEN has no encoding. -/
theorem test_wf_refuses_wide_message : (Instr.writeEnqueue [1, 2, 3, 4]).wf 2 = false := by decide

theorem test_wf_accepts_longest_message : (Instr.writeEnqueue [1, 2, 3]).wf 2 = true := by decide

/-! ### Decoding: 95_test_vectors.md section 2.1, each word written out from its OP, RSV and B fields -/

/-- E-1: OP 001, RSV 0000, B 0. -/
theorem test_decode_init : decode 8 [0b00100000#8] = .ok .init [] := by decide

/-- E-2: OP 010, RSV 0000, B 0, LEN 2, then P. -/
theorem test_decode_writeEnqueue :
    decode 8 [0b01000000#8, 0x02#8, 0x48#8, 0x49#8, 0xA0#8] = .ok (.writeEnqueue [0x48, 0x49]) [0xA0] := by decide

/-- E-3. -/
theorem test_decode_writeEnqueue_empty : decode 8 [0x40#8, 0x00#8] = .ok (.writeEnqueue []) [] := by decide

/-- E-4: OP 011. -/
theorem test_decode_writeBusy : decode 8 [0b01100000#8] = .ok .writeBusy [] := by decide

/-- E-5: OP 100. -/
theorem test_decode_writeAbort : decode 8 [0b10000000#8] = .ok .writeAbort [] := by decide

/-- E-6: OP 101. -/
theorem test_decode_writeStep : decode 8 [0b10100000#8] = .ok .writeStep [] := by decide

/-- E-7: OP 110, B 0. -/
theorem test_decode_readSink_low : decode 8 [0b11000000#8] = .ok (.readSink .low) [] := by decide

/-- E-8: OP 110, B 1. -/
theorem test_decode_readSink_high : decode 8 [0b11000001#8] = .ok (.readSink .high) [] := by decide

/-- E-9. -/
theorem test_decode_reservedOp :
    [0x00#8, 0x1F#8, 0xE0#8, 0xFF#8].map (fun c => decode 8 [c]) = List.replicate 4 (.illegal .reservedOp) := by decide

/-- E-10. -/
theorem test_decode_strayBit :
    [0x21#8, 0xA1#8].map (fun c => decode 8 [c]) = List.replicate 2 (.illegal .strayBit) := by decide

/-- E-11. -/
theorem test_decode_reservedBits :
    [0xC2#8, 0xA2#8, 0x28#8].map (fun c => decode 8 [c]) = List.replicate 3 (.illegal .reservedBits) := by decide

/-- E-12: IDX_W = 4. -/
theorem test_decode_wideLen : decode 4 [0x40#8, 0x1F#8] = .illegal .wideLen := by decide

/-- E-13's length bytes: IDX_W = 12, LB = 2, low byte first, 0x105 = 261. -/
theorem test_len_low_byte_first : lenBytes 12 = 2 ∧ leValue [0x05#8, 0x01#8] = 261 := by decide

/-- Log 11: the message ends early. -/
theorem test_decode_truncated : decode 8 [0x40#8, 0x02#8, 0x48#8] = .truncated := by decide

/-- 30_encoding.md R74: LB = 2 and the bytes of LEN in the stream. -/
theorem test_encode_two_length_bytes : encode 12 (.writeEnqueue [0xAA]) = [0x40#8, 0x01#8, 0x00#8, 0xAA#8] := by decide

/-- 10_state.md R21. -/
theorem test_mode_codes :
    [Mode.done, .startBit, .bits, .stopBit].map Mode.code = [0b00#2, 0b01#2, 0b10#2, 0b11#2] := by decide

/-! ### The host's view: a table word is decoded and is the first command after reset -/

theorem test_table_words :
    [0x20, 0x40, 0x60, 0x80, 0xA0, 0xC0, 0xC1].map (decodeTableWord 8) =
      [some .init, some (.writeEnqueue []), some .writeBusy, some .writeAbort, some .writeStep, some (.readSink .low),
        some (.readSink .high)] := by decide

theorem test_table_word_runs_first :
    seen (step (State.reset.withFetchWord 8 0x40)) =
      some (some ⟨0, 0⟩, ⟨.startBit, 0, 0x01, 0⟩, ⟨.done, 0, 0x01⟩) := by decide

/-! ### 95_test_vectors.md sections 2.2 to 2.4 -/

/-- S-5: INIT drops both engines' work and keeps events and buffers. -/
theorem test_init_drops_work :
    let s := { base with
      out := ⟨.bits, 1, 0x10, 2⟩, inp := ⟨.stopBit, 1, 0x01⟩, events := [⟨Config.someClosure, 1⟩], outMem := [(0, 0x55)] }
    seen (exec .init s) = some (some ⟨1, 0⟩, ⟨.done, 0, 0x01, 0⟩, ⟨.done, 0, 0x01⟩) ∧
    kept (exec .init s) = some ([(0, 0x55)], [], [⟨Config.someClosure, 1⟩], none) := by decide

/-- TX-5, L = OUT_CAP, over stale bytes. -/
theorem test_enqueue_full :
    let s := { base with outMem := [(0, 0x77), (1, 0x77)] }
    seen (exec (.writeEnqueue [0x0F, 0xF0]) s) = some (some ⟨0, 0⟩, ⟨.startBit, 0, 0x01, 2⟩, ⟨.done, 0, 0x01⟩) ∧
    kept (exec (.writeEnqueue [0x0F, 0xF0]) s) = some ([(0, 0x0F), (1, 0xF0)], [], [], none) := by decide

/-- TX-4: busy beats too large. -/
theorem test_enqueue_busy_beats_large :
    seen (exec (.writeEnqueue [1, 2, 3]) (tx .stopBit 1 0x80 1 [])) =
      some (some ⟨3, 0⟩, ⟨.stopBit, 1, 0x80, 1⟩, ⟨.done, 0, 0x01⟩) := by decide

/-- TX-13: bit 7 of 0x7F is 0, the index advances and the mask stays. -/
theorem test_step_last_data_bit :
    seen (exec .writeStep (tx .bits 1 0x80 2 [(1, 0x7F)])) =
      some (some ⟨0, 0⟩, ⟨.stopBit, 2, 0x80, 2⟩, ⟨.done, 0, 0x01⟩) := by decide

/-- TX-16: the fault of an empty message, with no response. -/
theorem test_step_empty_message :
    seen (exec .writeStep { bare with out := ⟨.bits, 0, 0x01, 0⟩ }) =
      some (none, ⟨.bits, 0, 0x01, 0⟩, ⟨.done, 0, 0x01⟩) ∧
    kept (exec .writeStep { bare with out := ⟨.bits, 0, 0x01, 0⟩ }) = some ([], [], [], some .txEmptyMessage) := by
  decide

/-- TX-17 and TX-19. -/
theorem test_busy :
    seen (exec .writeBusy base) = some (some ⟨0, 0⟩, ⟨.done, 0, 0x01, 0⟩, ⟨.done, 0, 0x01⟩) ∧
    seen (exec .writeBusy (tx .stopBit 1 0x80 1 [])) =
      some (some ⟨1, 0⟩, ⟨.stopBit, 1, 0x80, 1⟩, ⟨.done, 0, 0x01⟩) := by decide

/-- TX-20. -/
theorem test_abort :
    seen (exec .writeAbort (tx .bits 0 0x04 1 [(0, 0xA5)])) =
      some (some ⟨1, 0⟩, ⟨.done, 0, 0x04, 1⟩, ⟨.done, 0, 0x01⟩) := by decide

/-- RX-6: the eighth data bit, a 1, with the mask's rotation. -/
theorem test_sink_last_data_bit :
    seen (exec (.readSink .high) (rx .bits 1 0x80 [])) =
      some (some ⟨0, 0⟩, ⟨.done, 0, 0x01, 0⟩, ⟨.stopBit, 1, 0x01⟩) ∧
    kept (exec (.readSink .high) (rx .bits 1 0x80 [])) = some ([], [(1, 0x80)], [], none) := by decide

/-- RX-2: a new frame clears the buffer, and RX-9: a message of IN_CAP bytes is received whole. -/
theorem test_sink_start_clears :
    (kept (exec (.readSink .low) (rx .done 2 0x01 [(0, 0x48), (1, 0x49)]))).map (·.2.1) = some [] := by decide

theorem test_sink_message_of_capacity :
    seen (exec (.readSink .high) (rx .startBit 2 0x01 [(0, 0x11), (1, 0x22)])) =
      some (some ⟨1, 2⟩, ⟨.done, 0, 0x01, 0⟩, ⟨.done, 2, 0x01⟩) ∧
    (kept (exec (.readSink .high) (rx .startBit 2 0x01 [(0, 0x11), (1, 0x22)]))).map (·.2.2.1) =
      some [⟨Config.someClosure, 2⟩] := by decide

/-! ### Line images (95_test_vectors.md TX-L7, TX-L10) and a host access -/

theorem test_line_image :
    byteImage 0xA5#8 = [.low, .high, .low, .high, .low, .low, .high, .low, .high, .high] ∧
    byteImage 0x48#8 = [.low, .low, .low, .low, .high, .low, .low, .high, .low, .high] := by decide

theorem test_host_write_and_illegal_and_truncated :
    kept (step (hosted [.write .inp 1 0x0A])) = some ([], [(1, 0x0A)], [], none) ∧
    step (hosted [.write .inp 2 0x0A]) = .refused (.hostAddress .inp 2) ∧
    step { hosted [.byte 0x21#8] with pos := 5 } = .refused (.illegalCommand .strayBit 5) ∧
    step (hosted [.byte 0x40#8, .read .inp 0]) = .refused (.truncatedCommand 0) := by
  exact ⟨by decide, rfl, rfl, rfl⟩

/-! ### Witnesses: for each statement with hypotheses, states that meet them, at the boundaries of its clauses -/

theorem witness_PowerOnState : cfg2.valid = true ∧ cfg0.valid = true ∧ ∃ t, exec .init base = .next t :=
  ⟨by decide, by decide, _, rfl⟩

theorem witness_ResetMeetsInvariants :
    cfg2.valid = true ∧ Memory.wf [(0, 0xAA#8), (1, 0xBB#8)] = true ∧
    Memory.within cfg2.outCap [(0, 0xAA#8), (1, 0xBB#8)] = true ∧ Memory.wf [] = true ∧
    Memory.within cfg2.inCap [] = true := by decide

/-- S-2: IN_PRESENT false with IN_CAP 3; and the clause about INIT. -/
theorem witness_InvalidConfigurationHasNoBlock :
    Config.buffersValid { cfg2 with inPresent := false, inCap := 3 } = false ∧
    ∃ t, exec .init base = .next t :=
  ⟨by decide, _, rfl⟩

theorem witness_DecodeInvertsEncode :
    (Instr.writeEnqueue [0x48, 0x49]).wf 8 = true ∧ (Instr.writeEnqueue []).wf 0 = true := by decide

theorem witness_DecodedIsEncoded :
    decode 8 [0x40#8, 0x01#8, 0xFF#8, 0xC1#8] = .ok (.writeEnqueue [0xFF]) [0xC1] := by decide

theorem witness_IllegalCommandIsRefused :
    (hosted [.byte 0xFF#8]).live ∧ decode 8 (leadingBytes (hosted [.byte 0xFF#8]).host) = .illegal .reservedOp := by
  decide

theorem witness_StepRunsDecodedCommand :
    decode 8 (leadingBytes (hosted [.byte 0xA0#8, .byte 0x60#8]).host) = .ok .writeStep [0x60] := by decide

theorem witness_HostAccessesAndIdle :
    (hosted [.write .out 1 3]).cfg.valid = true ∧ Memory.wf ((hosted [.write .out 1 3]).mem .out) = true ∧
    1 < (hosted [.write .out 1 3]).cfg.cap .out ∧ (hosted [.read .inp 1]).cfg.valid = true ∧
    1 < (hosted [.read .inp 1]).cfg.cap .inp ∧ base.live ∧ base.host = [] := by decide

theorem witness_InitResetsBothEngines : base.live ∧ ∃ t, exec .init (tx .bits 0 0x04 1 []) = .next t :=
  ⟨by decide, _, rfl⟩

/-- Busy in each mode, one byte too many, exactly OUT_CAP bytes, and the empty message. -/
theorem witness_EnqueueOutcomes :
    (tx .stopBit 1 0x80 1 []).live ∧ (tx .stopBit 1 0x80 1 []).out.mode ≠ .done ∧
    base.live ∧ base.out.mode = .done ∧ base.cfg.outCap < [1#8, 2#8, 3#8].length ∧
    [1#8, 2#8].length ≤ base.cfg.outCap ∧ Memory.wf base.outMem = true ∧ bare.live ∧ bare.out.mode = .done := by
  decide

theorem witness_IdleStepsDriveHigh : base.live ∧ base.out.mode = .done := by decide

theorem witness_StartBitDrivesLow :
    (tx .startBit 1 0x01 2 []).live ∧ (tx .startBit 1 0x01 2 []).Inv ∧ (tx .startBit 1 0x01 2 []).out.mode = .startBit := by
  decide

/-- The empty message, the last byte of a full buffer at the first and the last mask position. -/
theorem witness_DataBitSteps :
    (tx .bits 0 0x01 0 []).live ∧ (tx .bits 0 0x01 0 []).Inv ∧ (tx .bits 0 0x01 0 []).out.len ≤ 0 ∧
    (tx .bits 1 0x80 2 []).live ∧ (tx .bits 1 0x80 2 []).out.i < (tx .bits 1 0x80 2 []).out.len ∧
    (tx .bits 1 0x80 2 []).out.i < (tx .bits 1 0x80 2 []).cfg.outCap ∧
    (tx .bits 1 0x01 2 []).live ∧ (tx .bits 1 0x01 2 []).out.mask = 0x01#8 := by decide

theorem witness_StopBitSteps :
    (tx .stopBit 2 0x80 2 []).live ∧ (tx .stopBit 2 0x80 2 []).out.i = (tx .stopBit 2 0x80 2 []).out.len ∧
    (tx .stopBit 1 0x80 2 []).live ∧ (tx .stopBit 1 0x80 2 []).out.i ≠ (tx .stopBit 1 0x80 2 []).out.len := by decide

theorem witness_BusyReportsMode : base.live ∧ (tx .stopBit 1 0x80 1 []).live := by decide

theorem witness_BusyChangesOnlyThere : ∃ t, exec .writeStep (tx .stopBit 1 0x80 1 []) = .next t := ⟨_, rfl⟩

theorem witness_AbortReturnsToIdle : (tx .bits 0 0x04 1 []).live := by decide

theorem witness_MessageGoesOutAsItsLineImage :
    base.live ∧ Memory.wf base.outMem = true ∧ base.out.mode = .done ∧ 1 ≤ [0x48#8].length ∧
    [0x48#8, 0x49#8].length ≤ base.cfg.outCap := by decide

theorem witness_IdleSampleChangesNothing : (rx .done 1 0x01 [(0, 0x48)]).live ∧ (rx .done 1 0x01 []).inp.mode = .done := by
  decide

theorem witness_LowSampleStartsFrame :
    base.live ∧ Memory.wf base.inMem = true ∧ base.inp.mode = .done ∧ 0 < base.cfg.inCap ∧
    bare.live ∧ Memory.wf bare.inMem = true ∧ bare.inp.mode = .done ∧ bare.cfg.inCap = 0 := by decide

theorem witness_HighSampleEndsMessage :
    (rx .startBit 1 0x01 []).live ∧ (rx .startBit 1 0x01 []).inp.mode = .startBit ∧ 1 ≤ (rx .startBit 1 0x01 []).inp.i := by
  decide

theorem witness_StartBitTestsCapacity :
    (rx .startBit 2 0x01 []).live ∧ (rx .startBit 2 0x01 []).cfg.inCap ≤ (rx .startBit 2 0x01 []).inp.i ∧
    (rx .startBit 2 0x01 []).Inv ∧
    (rx .startBit 1 0x01 []).live ∧ (rx .startBit 1 0x01 []).inp.i < (rx .startBit 1 0x01 []).cfg.inCap ∧
    bare.live ∧ bare.inp.mode = .done ∧ bare.cfg.inCap = 0 ∧ base.live ∧ base.inp.mode = .done ∧ 0 < base.cfg.inCap := by
  decide

theorem witness_DataSamplesAssembleByte :
    (rx .bits 1 0x80 []).live ∧ Memory.wf (rx .bits 1 0x80 []).inMem = true ∧ (rx .bits 1 0x80 []).inp.mode = .bits ∧
    (rx .bits 1 0x80 []).inp.i < (rx .bits 1 0x80 []).cfg.inCap ∧ (rx .bits 1 0x01 []).live ∧
    (rx .bits 1 0x01 []).inp.mask = 0x01#8 := by decide

theorem witness_StopBitSampleJudgesByte :
    (rx .stopBit 1 0x01 [(0, 0x11), (1, 0x2A)]).live ∧ (rx .stopBit 1 0x01 []).inp.mode = .stopBit := by decide

theorem witness_LineImageIsReceivedWhole :
    base.live ∧ Memory.wf base.inMem = true ∧ base.inp.mode = .done ∧ 1 ≤ [0x48#8].length ∧
    [0x48#8, 0x49#8].length ≤ base.cfg.inCap := by decide

theorem witness_LineHeldLowIsBadEveryTen : base.live ∧ base.inp.mode = .done ∧ 0 < base.cfg.inCap := by decide

theorem witness_IdleLineReturnsReceiverToDone :
    (rx .bits 1 0x01 []).live ∧ (rx .bits 1 0x01 []).Inv ∧ (rx .startBit 2 0x01 []).Inv ∧ (rx .stopBit 0 0x01 []).Inv := by
  decide

theorem witness_EnginesShareNoState :
    Instr.writeStep.isTransmit = true ∧ (∃ t, exec .writeStep (tx .bits 0 0x01 1 []) = .next t) ∧
    ∃ t, exec (.readSink .low) (rx .bits 0 0x01 []) = .next t :=
  ⟨rfl, ⟨_, rfl⟩, _, rfl⟩

theorem witness_EnginesCommute :
    Instr.writeStep.isTransmit = true ∧ (∃ t, exec .writeStep base = .next t ∧ t.fault = none) ∧
    ∃ u, exec (.readSink .high) base = .next u ∧ u.fault = none :=
  ⟨rfl, ⟨_, rfl, rfl⟩, _, rfl, rfl⟩

theorem witness_MemoryWritesAreThese :
    Memory.wf base.outMem = true ∧ Memory.wf base.inMem = true ∧ ∃ t, exec (.writeEnqueue [0x48]) base = .next t :=
  ⟨rfl, rfl, _, rfl⟩

theorem witness_ConfigurationIsFixed :
    (∃ t, step (hosted [.byte 0xA0#8]) = .next t) ∧ ∃ t, exec .writeStep base = .next t :=
  ⟨⟨_, rfl⟩, _, rfl⟩

theorem witness_EventsAreReceivedMessages :
    (∃ t, exec (.readSink .high) (rx .startBit 1 0x01 []) = .next t) ∧ ∃ t, step (hosted [.byte 0xC0#8]) = .next t :=
  ⟨⟨_, rfl⟩, _, rfl⟩

theorem witness_OneResponsePerCommand :
    (∃ t, exec .writeStep (tx .bits 0 0x01 0 []) = .next t ∧ t.fault ≠ none) ∧
    ∃ t, exec (.readSink .high) (rx .startBit 1 0x01 []) = .next t ∧ t.fault = none :=
  ⟨⟨_, rfl, by decide⟩, _, rfl, rfl⟩

theorem witness_ResultCodesAreListed :
    ∃ t, exec .writeAbort base = .next t ∧ t.responses = base.responses ++ [⟨1#4, 0⟩] := ⟨_, rfl, rfl⟩

theorem witness_EveryCommandCompletes :
    base.live ∧ base.Inv ∧ (tx .bits 1 0x80 2 []).live ∧ (tx .bits 1 0x80 2 []).Inv ∧
    ¬((tx .bits 1 0x80 2 []).out.len ≤ (tx .bits 1 0x80 2 []).out.i) := by decide

theorem witness_FaultsAreRaisedOnlyThere :
    (tx .bits 0 0x01 0 []).Inv ∧
    (∃ t, exec .writeStep (tx .bits 0 0x01 0 []) = .next t ∧ t.fault = some .txEmptyMessage) ∧
    ∃ t, exec (.readSink .high) (rx .bits 2 0x01 []) = .next t ∧ t.fault = some .memRange :=
  ⟨by decide, ⟨_, rfl, rfl⟩, _, rfl, rfl⟩

theorem witness_OutOfRangeAccessFaults :
    (tx .bits 2 0x01 3 []).live ∧ (tx .bits 2 0x01 3 []).out.i < (tx .bits 2 0x01 3 []).out.len ∧
    (tx .bits 2 0x01 3 []).cfg.outCap ≤ (tx .bits 2 0x01 3 []).out.i ∧
    (rx .bits 2 0x01 []).live ∧ (rx .bits 2 0x01 []).cfg.inCap ≤ (rx .bits 2 0x01 []).inp.i := by decide

/-- The block of `base` with a fault recorded and one host write and one command pending. -/
def faulted : State := { hosted [.write .inp 0 1, .byte 0x20#8] with fault := some .txEmptyMessage }

theorem witness_FaultRecordIsSticky :
    faulted.fault = some .txEmptyMessage ∧ faulted.cfg.valid = true ∧ ∃ t, step faulted = .next t :=
  ⟨rfl, rfl, _, rfl⟩

/-- A command, an illegal byte, and nothing pending. -/
theorem witness_FaultedBlockTakesNoCommand :
    faulted.cfg.valid = true ∧ faulted.fault = some .txEmptyMessage ∧
    [[HostMove.byte 0x20#8], [.byte 0xFF#8], []].map (fun h => step { faulted with host := h }) =
      List.replicate 3 (.fault (.quiescent .txEmptyMessage)) :=
  ⟨rfl, rfl, rfl⟩

theorem witness_EveryStepKeepsInvariants :
    (hosted [.byte 0xC0#8]).Inv ∧ ∃ t, step (hosted [.byte 0xC0#8]) = .next t := ⟨by decide, _, rfl⟩

theorem witness_DecidedHiddenValues :
    (∃ t, exec .writeStep (tx .stopBit 2 0x80 2 []) = .next t) ∧
    (∃ t, exec .writeAbort (tx .bits 0 0x04 1 []) = .next t) ∧
    (∃ t, exec (.readSink .low) (rx .bits 0 0x80 []) = .next t ∧ t.fault = none) ∧
    (rx .startBit 0 0x01 []).live ∧ (rx .startBit 0 0x01 []).inp.i = 0 ∧ (rx .stopBit 0 0x01 []).live :=
  ⟨⟨_, rfl⟩, ⟨_, rfl⟩, ⟨_, rfl, rfl⟩, by decide, rfl, by decide⟩

end Sys2Proof.Tests
end

section
/-! SUPPORT. The invariants of 10_state.md R38 and R39 and what every operation keeps of the state: one rule per part
of the state, each by the cases of Laws/Cases.lean. -/

namespace Sys2Proof.Machine

/-! ### The invariants as propositions -/

theorem maskLegal_shiftLeft {m : Byte} (h : maskLegal m = true) (hm : m ≠ 0x80#8) : maskLegal (m <<< 1) = true := by
  revert m
  decide

theorem maskLegal_rotateLeft {m : Byte} (h : maskLegal m = true) : maskLegal ((m <<< 1) ||| (m >>> 7)) = true := by
  revert m
  decide

/-- 10_state.md R38, one clause per mode. -/
theorem State.txInv_iff {s : State} : s.txInv = true ↔
    s.out.len ≤ s.cfg.outCap ∧ s.out.i ≤ s.out.len ∧ maskLegal s.out.mask = true ∧
    (s.out.mode = .startBit → s.out.mask = 0x01#8) ∧
    (s.out.mode = .startBit ∨ s.out.mode = .bits → s.out.i < s.out.len ∨ s.out.len = 0) ∧
    (s.out.mode = .stopBit → s.out.mask = 0x80#8 ∧ 1 ≤ s.out.i) := by
  unfold State.txInv
  cases s.out.mode <;> simp [and_assoc]

/-- 10_state.md R39, one clause per mode. -/
theorem State.rxInv_iff {s : State} : s.rxInv = true ↔
    s.inp.i ≤ s.cfg.inCap ∧ maskLegal s.inp.mask = true ∧
    (s.inp.mode = .startBit → 1 ≤ s.inp.i) ∧
    (s.inp.mode = .bits ∨ s.inp.mode = .stopBit → s.inp.i < s.cfg.inCap) := by
  unfold State.rxInv
  cases s.inp.mode <;> simp [and_assoc]

theorem State.memInv_iff {s : State} : s.memInv = true ↔
    (s.outMem.wf = true ∧ Memory.within s.cfg.outCap s.outMem = true) ∧
    (s.inMem.wf = true ∧ Memory.within s.cfg.inCap s.inMem = true) := by
  simp [State.memInv, and_assoc]

theorem State.memInv_mem {s : State} (h : s.memInv = true) (sp : Space) :
    (s.mem sp).wf = true ∧ Memory.within (s.cfg.cap sp) (s.mem sp) = true := by
  cases sp
  · exact (State.memInv_iff.1 h).1
  · exact (State.memInv_iff.1 h).2

theorem State.memInv_setMem {s : State} {sp : Space} {m : Memory} (h : s.memInv = true) (hw : m.wf = true)
    (hc : Memory.within (s.cfg.cap sp) m = true) : (s.setMem sp m).memInv = true := by
  cases sp
  · exact State.memInv_iff.2 ⟨⟨hw, hc⟩, State.memInv_mem h .inp⟩
  · exact State.memInv_iff.2 ⟨State.memInv_mem h .out, ⟨hw, hc⟩⟩

/-- A write of one byte in range keeps the memories' form. -/
theorem State.memInv_write {s : State} {sp : Space} {a : Nat} (h : s.memInv = true) (ha : a < s.cfg.cap sp)
    (v : Byte) : (s.setMem sp ((s.mem sp).write a v)).memInv = true :=
  have hm := State.memInv_mem h sp
  State.memInv_setMem h (Memory.write_wf hm.1 a v) (Memory.write_within hm.2 ha v)

/-- Writes of consecutive bytes in range keep the memories' form. -/
theorem State.memInv_writeSeq {s : State} {sp : Space} {a : Nat} {p : List Byte} (h : s.memInv = true)
    (ha : a + p.length ≤ s.cfg.cap sp) : (s.setMem sp ((s.mem sp).writeSeq a p)).memInv = true :=
  have hm := State.memInv_mem h sp
  State.memInv_setMem h (Memory.writeSeq_wf hm.1 a p) (Memory.writeSeq_within hm.2 ha)

/-- The clear of 42_receive.md R142 keeps the memories' form. -/
theorem State.memInv_cleared {s : State} (h : s.memInv = true) : (s.setMem .inp (cleared s)).memInv = true :=
  State.memInv_writeSeq (sp := .inp) h (by simp [Config.cap])

/-! ### Frames: what each engine's command leaves unchanged -/

/-- 10_state.md R37: WRITE_STEP leaves the receive engine, and both memories. -/
theorem StepCase.frame {s t : State} (h : StepCase s t) :
    t.cfg = s.cfg ∧ t.inp = s.inp ∧ t.inMem = s.inMem ∧ t.events = s.events ∧ t.outMem = s.outMem := by
  cases h <;> exact ⟨rfl, rfl, rfl, rfl, rfl⟩

/-- 10_state.md R37: WRITE_ENQUEUE leaves the receive engine. -/
theorem EnqCase.frame {p : List Byte} {s t : State} (h : EnqCase p s t) :
    t.cfg = s.cfg ∧ t.inp = s.inp ∧ t.inMem = s.inMem ∧ t.events = s.events := by
  cases h <;> exact ⟨rfl, rfl, rfl, rfl⟩

/-- 10_state.md R37: READ_SINK leaves the transmit engine. -/
theorem SinkCase.frame {b : Level} {s t : State} (h : SinkCase b s t) :
    t.cfg = s.cfg ∧ t.out = s.out ∧ t.outMem = s.outMem := by
  cases h <;> exact ⟨rfl, rfl, rfl⟩

/-- 10_state.md R29. -/
theorem ExecCase.cfg {i : Instr} {s t : State} (h : ExecCase i s t) : t.cfg = s.cfg := by
  cases h with
  | init => rfl
  | busy => rfl
  | abort => rfl
  | enq h => exact h.frame.1
  | step h => exact h.frame.1
  | sink h => exact h.frame.1

/-- 10_state.md R37: a transmit command leaves the receive engine and the events. -/
theorem ExecCase.transmit_frame {i : Instr} {s t : State} (h : ExecCase i s t) (hi : i.isTransmit = true) :
    t.cfg = s.cfg ∧ t.inp = s.inp ∧ t.inMem = s.inMem ∧ t.events = s.events := by
  cases h with
  | init => cases hi
  | sink => cases hi
  | busy => exact ⟨rfl, rfl, rfl, rfl⟩
  | abort => exact ⟨rfl, rfl, rfl, rfl⟩
  | enq h => exact h.frame
  | step h =>
    obtain ⟨hc, hr, hm, he, -⟩ := h.frame
    exact ⟨hc, hr, hm, he⟩

/-! ### The transmit invariant -/

theorem State.txInv_of_eq {s t : State} (hc : t.cfg = s.cfg) (ho : t.out = s.out) (h : s.txInv = true) :
    t.txInv = true := by
  rw [State.txInv, hc, ho]
  exact h

theorem EnqCase.txInv {p : List Byte} {s t : State} (h : EnqCase p s t) (hi : s.txInv = true) : t.txInv = true := by
  cases h with
  | busy => exact hi
  | large => exact hi
  | ok _ hp =>
    refine State.txInv_iff.2 ⟨hp, Nat.zero_le _, rfl, fun _ => rfl, fun _ => ?_, nofun⟩
    exact (Nat.eq_zero_or_pos p.length).symm

theorem StepCase.txInv {s t : State} (h : StepCase s t) (hi : s.txInv = true) : t.txInv = true := by
  obtain ⟨hlen, hle, hmask, -, hlt, hstop⟩ := State.txInv_iff.1 hi
  cases h with
  | idle => exact hi
  | empty => exact hi
  | range => exact hi
  | start hm => exact State.txInv_iff.2 ⟨hlen, hle, hmask, nofun, fun _ => hlt (.inl hm), nofun⟩
  | data hm hl _ =>
    by_cases h80 : s.out.mask = 0x80#8
    · exact State.txInv_iff.2 (by simp [h80, hlen, maskLegal]; omega)
    · exact State.txInv_iff.2 (by simp [h80, hm, hlen, hle, hl, maskLegal_shiftLeft hmask h80])
  | final => exact State.txInv_iff.2 (by simp [hlen, hle, hmask])
  | again _ hne => exact State.txInv_iff.2 (by simp [hlen, hle, maskLegal]; omega)

theorem ExecCase.txInv {i : Instr} {s t : State} (h : ExecCase i s t) (hi : s.txInv = true) : t.txInv = true := by
  cases h with
  | init => exact State.txInv_iff.2 (by simp [maskLegal])
  | busy => exact hi
  | abort =>
    obtain ⟨hlen, hle, hmask, -⟩ := State.txInv_iff.1 hi
    exact State.txInv_iff.2 (by simp [hlen, hle, hmask])
  | enq h => exact h.txInv hi
  | step h => exact h.txInv hi
  | sink h =>
    obtain ⟨hc, ho, -⟩ := h.frame
    exact State.txInv_of_eq hc ho hi

/-! ### The receive invariant -/

theorem State.rxInv_of_eq {s t : State} (hc : t.cfg = s.cfg) (hr : t.inp = s.inp) (h : s.rxInv = true) :
    t.rxInv = true := by
  rw [State.rxInv, hc, hr]
  exact h

/-- The registers that `Done` allows: the mode may go there from anywhere. -/
theorem State.rxInv_done {s t : State} (hc : t.cfg = s.cfg) (hr : t.inp = { s.inp with mode := .done })
    (h : s.rxInv = true) : t.rxInv = true := by
  obtain ⟨hi, hmask, -⟩ := State.rxInv_iff.1 h
  exact State.rxInv_iff.2 (by simp [hc, hr, hi, hmask])

theorem SinkCase.rxInv {b : Level} {s t : State} (h : SinkCase b s t) (hi : s.rxInv = true) : t.rxInv = true := by
  obtain ⟨hle, hmask, -, hlt⟩ := State.rxInv_iff.1 hi
  cases h with
  | idle => exact hi
  | noByte => exact hi
  | range => exact hi
  | noRoom => exact State.rxInv_iff.2 (by simp [hmask])
  | start _ _ hc => exact State.rxInv_iff.2 (by simp [hc, maskLegal])
  | message => exact State.rxInv_done (s := s) rfl rfl hi
  | full => exact State.rxInv_done (s := s) rfl rfl hi
  | badStop => exact State.rxInv_done (s := s) rfl rfl hi
  | nextByte _ _ hc => exact State.rxInv_iff.2 (by simp [hc, hle, maskLegal])
  | data hm _ =>
    refine State.rxInv_iff.2 ⟨hle, maskLegal_rotateLeft hmask, ?_, fun _ => hlt (.inl hm)⟩
    dsimp only
    split <;> nofun
  | goodStop hm _ => exact State.rxInv_iff.2 ⟨hlt (.inr hm), hmask, fun _ => Nat.le_add_left .., by simp⟩

theorem ExecCase.rxInv {i : Instr} {s t : State} (h : ExecCase i s t) (hi : s.rxInv = true) : t.rxInv = true := by
  cases h with
  | init => exact State.rxInv_iff.2 (by simp [maskLegal])
  | busy => exact hi
  | abort => exact hi
  | enq h =>
    obtain ⟨hc, hr, -⟩ := h.frame
    exact State.rxInv_of_eq hc hr hi
  | step h =>
    obtain ⟨hc, hr, -⟩ := h.frame
    exact State.rxInv_of_eq hc hr hi
  | sink h => exact h.rxInv hi

/-! ### The memories' form -/

theorem State.memInv_of_eq {s t : State} (hc : t.cfg = s.cfg) (ho : t.outMem = s.outMem) (hi : t.inMem = s.inMem)
    (h : s.memInv = true) : t.memInv = true := by
  rw [State.memInv, hc, ho, hi]
  exact h

theorem EnqCase.memInv {p : List Byte} {s t : State} (h : EnqCase p s t) (hi : s.memInv = true) : t.memInv = true := by
  cases h with
  | busy => exact hi
  | large => exact hi
  | ok _ hp => exact State.memInv_writeSeq (sp := .out) hi (by simpa [Config.cap] using hp)

theorem SinkCase.memInv {b : Level} {s t : State} (h : SinkCase b s t) (hi : s.memInv = true) : t.memInv = true := by
  cases h with
  | noRoom => exact State.memInv_cleared hi
  | start => exact State.memInv_cleared hi
  | data _ hc =>
    cases b with
    | low => exact hi
    | high => exact State.memInv_write (sp := .inp) hi (hc rfl) _
  | _ => exact hi

theorem ExecCase.memInv {i : Instr} {s t : State} (h : ExecCase i s t) (hi : s.memInv = true) : t.memInv = true := by
  cases h with
  | init => exact hi
  | busy => exact hi
  | abort => exact hi
  | enq h => exact h.memInv hi
  | step h =>
    obtain ⟨hc, -, hin, -, ho⟩ := h.frame
    exact State.memInv_of_eq hc ho hin hi
  | sink h => exact h.memInv hi

/-! ### The whole invariant -/

/-- Every command keeps the invariant. -/
theorem exec_inv {i : Instr} {s t : State} (h : exec i s = .next t) (hi : s.Inv) : t.Inv := by
  obtain ⟨-, hcase⟩ := exec_cases h
  obtain ⟨hv, htx, hrx, hmem⟩ := hi
  exact ⟨by rw [hcase.cfg]; exact hv, hcase.txInv htx, hcase.rxInv hrx, hcase.memInv hmem⟩

/-- A host write in range keeps the invariant. -/
theorem State.inv_write {s : State} {sp : Space} {a : Nat} (hi : s.Inv) (ha : a < s.cfg.cap sp) (v : Byte) :
    (s.setMem sp ((s.mem sp).write a v)).Inv := by
  obtain ⟨hv, htx, hrx, hmem⟩ := hi
  refine ⟨?_, State.txInv_of_eq ?_ ?_ htx, State.rxInv_of_eq ?_ ?_ hrx, State.memInv_write hmem ha v⟩ <;> simp [hv]

end Sys2Proof.Machine
end

section
/-! SUPPORT. What a command does when only the state of the other engine, or CLOSURE, is different (10_state.md R29
and R37), and the events it appends (R30). -/

namespace Sys2Proof.Machine

/-! ### Events -/

/-- The events that READ_SINK appends (42_receive.md R143). -/
def sinkEvents (b : Level) (s : State) : List MsgEvent :=
  if b = .high ∧ s.inp.mode = .startBit ∧ 1 ≤ s.inp.i ∧ s.cfg.cbPresent then
    [⟨s.cfg.closure, s.inp.i⟩]
  else []

theorem SinkCase.events {b : Level} {s t : State} (h : SinkCase b s t) : t.events = s.events ++ sinkEvents b s := by
  cases h with
  | message hm hb hi => cases hc : s.cfg.cbPresent <;> simp [sinkEvents, hm, hb, hi, hc]
  | noByte hm hb hi => simp [sinkEvents, hi]
  | full hm hb => simp [sinkEvents, hb]
  | nextByte hm hb => simp [sinkEvents, hb]
  | idle hm | noRoom hm | start hm | range hm | data hm | goodStop hm | badStop hm => simp [sinkEvents, hm]

/-- READ_SINK answers GotMessage (CODE 1) exactly where it ends a message, and COUNT is the byte index there. -/
theorem SinkCase.gotMessage_iff {b : Level} {s t : State} {n : Nat} (h : SinkCase b s t) :
    t.responses = s.responses ++ [⟨1#4, n⟩] ↔
      b = .high ∧ s.inp.mode = .startBit ∧ 1 ≤ s.inp.i ∧ s.inp.i = n := by
  cases h with
  | message hm hb hi => simp [hm, hb, hi]
  | noByte hm hb hi => simp [hi]
  | full hm hb => simp [hb]
  | nextByte hm hb => simp [hb]
  | idle hm | noRoom hm | start hm | range hm | data hm | goodStop hm | badStop hm => simp [hm]

/-- Only READ_SINK appends events. -/
theorem ExecCase.events_or_sink {i : Instr} {s t : State} (h : ExecCase i s t) :
    (t.events = s.events ∧ ∀ b, i ≠ .readSink b) ∨ ∃ b, i = .readSink b ∧ SinkCase b s t := by
  cases h with
  | init => exact .inl ⟨rfl, nofun⟩
  | busy => exact .inl ⟨rfl, nofun⟩
  | abort => exact .inl ⟨rfl, nofun⟩
  | enq h =>
    obtain ⟨-, -, -, he⟩ := h.frame
    exact .inl ⟨he, nofun⟩
  | step h =>
    obtain ⟨-, -, -, he, -⟩ := h.frame
    exact .inl ⟨he, nofun⟩
  | sink h => exact .inr ⟨_, rfl, h⟩

theorem exec_events_prefix {i : Instr} {s t : State} (h : exec i s = .next t) : s.events <+: t.events := by
  obtain ⟨he, -⟩ | ⟨b, -, hcase⟩ := (exec_cases h).2.events_or_sink
  · rw [he]
  · rw [hcase.events]
    exact List.prefix_append ..

/-! ### The other engine and CLOSURE are not read -/

/-- The same block with another CLOSURE, receive engine and event history. -/
def State.withRx (s : State) (c : Closure) (r : RxState) (m : Memory) (e : List MsgEvent) : State :=
  { s with cfg := { s.cfg with closure := c }, inp := r, inMem := m, events := e }

/-- The same block with another CLOSURE and transmit engine. -/
def State.withTx (s : State) (c : Closure) (r : TxState) (m : Memory) : State :=
  { s with cfg := { s.cfg with closure := c }, out := r, outMem := m }

@[simp] theorem State.withRx_out (s : State) (c : Closure) (r : RxState) (m : Memory) (e : List MsgEvent) :
    (s.withRx c r m e).out = s.out := rfl

@[simp] theorem State.withRx_memRead_out (s : State) (c : Closure) (r : RxState) (m : Memory) (e : List MsgEvent)
    (a : Nat) : (s.withRx c r m e).memRead .out a = s.memRead .out a := rfl

@[simp] theorem State.withRx_outCap (s : State) (c : Closure) (r : RxState) (m : Memory) (e : List MsgEvent) :
    (s.withRx c r m e).cfg.outCap = s.cfg.outCap := rfl

@[simp] theorem State.withTx_inp (s : State) (c : Closure) (r : TxState) (m : Memory) :
    (s.withTx c r m).inp = s.inp := rfl

@[simp] theorem State.withTx_inCap (s : State) (c : Closure) (r : TxState) (m : Memory) :
    (s.withTx c r m).cfg.inCap = s.cfg.inCap := rfl

theorem sendDataBit_withRx (s : State) (c : Closure) (r : RxState) (m : Memory) (e : List MsgEvent) :
    sendDataBit (s.withRx c r m e) = (sendDataBit s).withRx c r m e := by
  by_cases hl : s.out.len ≤ s.out.i
  · simp only [sendDataBit, State.withRx_out, hl, if_true]
    rfl
  · simp only [sendDataBit, State.withRx_out, State.withRx_memRead_out, hl, if_false]
    cases s.memRead .out s.out.i <;> rfl

/-- A transmit command neither reads nor writes CLOSURE, the receive engine or the events. -/
theorem execState_withRx {i : Instr} (hi : i.isTransmit = true) (s : State) (c : Closure) (r : RxState) (m : Memory)
    (e : List MsgEvent) : execState i (s.withRx c r m e) = (execState i s).withRx c r m e := by
  cases i with
  | init => cases hi
  | readSink b => cases hi
  | writeBusy => rfl
  | writeAbort => rfl
  | writeEnqueue p =>
    by_cases hm : s.out.mode = .done
    · by_cases hc : s.cfg.outCap < p.length <;> simp [execState, hm, hc] <;> rfl
    · simp [execState, hm]
      rfl
  | writeStep =>
    simp only [execState, State.withRx_out]
    cases s.out.mode with
    | bits => exact sendDataBit_withRx s c r m e
    | _ => rfl

theorem exec_withRx {i : Instr} {s t : State} (hi : i.isTransmit = true) (h : exec i s = .next t) (c : Closure)
    (r : RxState) (m : Memory) (e : List MsgEvent) : exec i (s.withRx c r m e) = .next (t.withRx c r m e) := by
  obtain ⟨hl, rfl⟩ := exec_eq_next.1 h
  exact exec_eq_next.2 ⟨hl, execState_withRx hi s c r m e⟩

/-- A state transformer that reads and writes neither CLOSURE nor the transmit engine, but for the events it
appends. -/
def IgnoresTx (f : State → State) : Prop :=
  ∀ (s : State) (c : Closure) (r : TxState) (m : Memory),
    f (s.withTx c r m) = { (f s).withTx c r m with events := (f (s.withTx c r m)).events }

theorem ignoresTx_startBitCase (b : Level) : IgnoresTx (startBitCase b) := by
  intro s c r m
  cases b with
  | low => by_cases hc : s.cfg.inCap ≤ s.inp.i <;> simp [startBitCase, hc] <;> rfl
  | high => by_cases hi : 1 ≤ s.inp.i <;> simp [startBitCase, hi] <;> rfl

theorem ignoresTx_startFrame : IgnoresTx startFrame := by
  intro s c r m
  rw [startFrame_eq, startFrame_eq]
  exact ignoresTx_startBitCase .low ((s.setInp { s.inp with i := 0 }).setMem .inp (cleared s)) c r m

theorem ignoresTx_takeDataBit (b : Level) : IgnoresTx (takeDataBit b) := by
  intro s c r m
  cases b with
  | low => rfl
  | high =>
    by_cases hc : s.inp.i < s.cfg.inCap
    · have hc' : (s.withTx c r m).inp.i < (s.withTx c r m).cfg.inCap := hc
      rw [takeDataBit, orIntoByte_high_in hc', takeDataBit, orIntoByte_high_in hc]
      rfl
    · have hc := Nat.le_of_not_lt hc
      have hc' : (s.withTx c r m).cfg.inCap ≤ (s.withTx c r m).inp.i := hc
      rw [takeDataBit, orIntoByte_high_out_of_range hc', takeDataBit, orIntoByte_high_out_of_range hc]
      rfl

theorem ignoresTx_readSink (b : Level) : IgnoresTx (execState (.readSink b)) := by
  intro s c r m
  simp only [execState, State.withTx_inp]
  cases s.inp.mode with
  | done =>
    cases b with
    | high => rfl
    | low => exact ignoresTx_startFrame s c r m
  | startBit => exact ignoresTx_startBitCase b s c r m
  | bits => exact ignoresTx_takeDataBit b s c r m
  | stopBit => cases b <;> rfl

/-- READ_SINK neither reads nor writes CLOSURE or the transmit engine, but that its event carries CLOSURE. -/
theorem exec_readSink_withTx {b : Level} {s t : State} (h : exec (.readSink b) s = .next t) (c : Closure)
    (r : TxState) (m : Memory) :
    exec (.readSink b) (s.withTx c r m) =
      .next { t.withTx c r m with events := s.events ++ sinkEvents b (s.withTx c r m) } := by
  obtain ⟨hl, rfl⟩ := exec_eq_next.1 h
  refine exec_eq_next.2 ⟨hl, ?_⟩
  rw [ignoresTx_readSink, (execState_readSink_cases b _).events]
  rfl

theorem exec_readSink_cases {b : Level} {s t : State} (h : exec (.readSink b) s = .next t) : SinkCase b s t := by
  obtain ⟨-, hcase⟩ := exec_cases h
  cases hcase with
  | sink hcase => exact hcase

theorem sinkEvents_count_withTx (b : Level) (s : State) (c : Closure) (r : TxState) (m : Memory) :
    (sinkEvents b (s.withTx c r m)).map MsgEvent.count = (sinkEvents b s).map MsgEvent.count := by
  unfold sinkEvents State.withTx
  dsimp only
  split_ifs <;> rfl

/-- 10_state.md R29: with another CLOSURE, the same next state but for the closures in the events. -/
theorem exec_withClosure {i : Instr} {s t : State} (h : exec i s = .next t) (c : Closure) :
    ∃ e : List MsgEvent, e.map MsgEvent.count = t.events.map MsgEvent.count ∧
      exec i { s with cfg := { s.cfg with closure := c } } =
        .next { t with cfg := { s.cfg with closure := c }, events := e } := by
  by_cases hi : i.isTransmit = true
  · obtain ⟨hc, hinp, hmem, hev⟩ := (exec_cases h).2.transmit_frame hi
    refine ⟨s.events, by rw [hev], (exec_withRx hi h c s.inp s.inMem s.events).trans ?_⟩
    simp only [State.withRx, hc, hinp, hmem]
  · cases i with
    | init =>
      obtain ⟨hl, rfl⟩ := exec_eq_next.1 h
      exact ⟨s.events, rfl, exec_eq_next.2 ⟨hl, rfl⟩⟩
    | readSink b =>
      have hcase := exec_readSink_cases h
      obtain ⟨hc, hout, hmem⟩ := hcase.frame
      refine ⟨s.events ++ sinkEvents b (s.withTx c s.out s.outMem), ?_,
        (exec_readSink_withTx h c s.out s.outMem).trans ?_⟩
      · rw [hcase.events, List.map_append, List.map_append, sinkEvents_count_withTx]
      · simp only [State.withTx, hc, hout, hmem]
    | _ => exact absurd rfl hi

/-! ### The busy flag, the fault record and the step -/

/-- 10_state.md R32. -/
theorem State.busy_iff (s : State) : s.busy = true ↔ s.out.mode ≠ .done := by
  simp [State.busy]

theorem State.busy_ne_iff {s t : State} :
    t.busy ≠ s.busy ↔ ¬(t.out.mode = .done ↔ s.out.mode = .done) := by
  rw [ne_eq, Bool.eq_iff_iff, State.busy_iff, State.busy_iff]
  exact not_congr not_iff_not

/-- 10_state.md R31: raising sets the record where it is none, and nothing else. -/
theorem State.raise_eq (s : State) (k : FaultKind) : s.raise k = { s with fault := some (s.fault.getD k) } := by
  unfold State.raise
  cases s.fault <;> rfl

/-- A step is a host access or idle, which leave all but the memories and the host's own fields, or one command. -/
theorem step_frame_or_exec {s t : State} (h : step s = .next t) :
    (t.cfg = s.cfg ∧ t.out = s.out ∧ t.inp = s.inp ∧ t.events = s.events ∧ t.fault = s.fault ∧
      t.responses = s.responses) ∨
    (s.fault = none ∧ ∃ i n, exec i (s.consume n) = .next t) := by
  obtain ⟨-, hw | hr | hidle | hcmd⟩ := step_cases h
  · obtain ⟨sp, a, v, rest, -, -, rfl⟩ := hw
    exact .inl (by simp)
  · obtain ⟨sp, a, rest, -, -, rfl⟩ := hr
    exact .inl ⟨rfl, rfl, rfl, rfl, rfl, rfl⟩
  · obtain ⟨-, -, rfl⟩ := hidle
    exact .inl ⟨rfl, rfl, rfl, rfl, rfl, rfl⟩
  · obtain ⟨i, rest, hf, -, he⟩ := hcmd
    exact .inr ⟨hf, i, _, he⟩

theorem step_cfg {s t : State} (h : step s = .next t) : t.cfg = s.cfg := by
  obtain ⟨hc, -⟩ | ⟨-, i, n, he⟩ := step_frame_or_exec h
  · exact hc
  · exact (exec_cases he).2.cfg

theorem step_events_prefix {s t : State} (h : step s = .next t) : s.events <+: t.events := by
  obtain ⟨-, -, -, he, -⟩ | ⟨-, i, n, he⟩ := step_frame_or_exec h
  · rw [he]
  · have hp := exec_events_prefix he
    rwa [State.consume_events] at hp

/-- A step from a recorded fault keeps the record. -/
theorem step_fault_sticky {s t : State} {k : FaultKind} (hf : s.fault = some k) (h : step s = .next t) :
    t.fault = some k := by
  obtain ⟨-, -, -, -, heq, -⟩ | ⟨hn, -⟩ := step_frame_or_exec h
  · rw [heq, hf]
  · cases hf.symm.trans hn

end Sys2Proof.Machine
end

section
/-! The obligations of 10_state.md, assembled from the rules above. -/

namespace Sys2Proof.Machine

/-- Settles O41: a host move by what it does, and a command by the rule of each part of the invariant. -/
theorem everyStepKeepsInvariants : Obligations.EveryStepKeepsInvariants := by
  intro s t hi h
  obtain ⟨-, hw | hr | hidle | hcmd⟩ := step_cases h
  · obtain ⟨sp, a, v, rest, -, ha, rfl⟩ := hw
    exact State.inv_write hi ha v
  · obtain ⟨sp, a, rest, -, -, rfl⟩ := hr
    exact hi
  · obtain ⟨-, -, rfl⟩ := hidle
    exact hi
  · obtain ⟨i, rest, -, -, he⟩ := hcmd
    exact exec_inv he hi

/-- Settles O33: a step makes a host access or runs a command, and a command commutes with a change of CLOSURE. -/
theorem configurationIsFixed : Obligations.ConfigurationIsFixed :=
  ⟨fun _ _ h => step_cfg h, fun _ _ _ c h => ⟨(exec_cases h).2.cfg, exec_withClosure h c⟩⟩

/-- Settles O30: each engine's command commutes with a change of the other engine. -/
theorem enginesShareNoState : Obligations.EnginesShareNoState := by
  constructor
  · intro i s t hi h
    obtain ⟨hc, hinp, hmem, hev⟩ := (exec_cases h).2.transmit_frame hi
    refine ⟨hinp, hmem, hev, fun r m e => (exec_withRx hi h s.cfg.closure r m e).trans ?_⟩
    simp only [State.withRx, hc]
  · intro b s t h
    have hcase := exec_readSink_cases h
    obtain ⟨hc, hout, hmem⟩ := hcase.frame
    refine ⟨hout, hmem, fun r m => (exec_readSink_withTx h s.cfg.closure r m).trans ?_⟩
    simp only [State.withTx, hc, hcase.events]
    rfl

/-- Settles O34: a READ_SINK's response is GotMessage exactly where the events it appends are not empty, given a
callback. -/
theorem eventsAreReceivedMessages : Obligations.EventsAreReceivedMessages := by
  refine ⟨fun i s t h => ?_, fun s t h => step_events_prefix h, fun _ _ _ _ => rfl⟩
  obtain ⟨he, hne⟩ | ⟨b, rfl, hcase⟩ := (exec_cases h).2.events_or_sink
  · exact .inl ⟨he, fun ⟨_, b, _, hb, _⟩ => hne b hb⟩
  · by_cases hg : b = .high ∧ s.inp.mode = .startBit ∧ 1 ≤ s.inp.i ∧ s.cfg.cbPresent = true
    · have he := hcase.events
      rw [sinkEvents, if_pos hg] at he
      obtain ⟨hb, hm, hi, hc⟩ := hg
      exact .inr ⟨hc, b, s.inp.i, rfl, hcase.gotMessage_iff.2 ⟨hb, hm, hi, rfl⟩, he⟩
    · have he := hcase.events
      rw [sinkEvents, if_neg hg, List.append_nil] at he
      refine .inl ⟨he, ?_⟩
      rintro ⟨hc, b', n, -, hr⟩
      obtain ⟨hb, hm, hi, -⟩ := hcase.gotMessage_iff.1 hr
      exact hg ⟨hb, hm, hi, hc⟩

/-- Settles O40: only a host access has a step after a recorded fault, and it keeps the record. -/
theorem faultRecordIsSticky : Obligations.FaultRecordIsSticky := by
  refine ⟨fun _ _ _ _ => rfl, State.raise_eq, fun s t k hf h => step_fault_sticky hf h, fun i s k hv hf => ?_⟩
  rw [exec_eq_operate]
  exact operate_faulted hv hf

/-- Settles O2: R250's registers meet each part of the invariant. -/
theorem resetMeetsInvariants : Obligations.ResetMeetsInvariants := by
  refine ⟨fun cfg om im moves hv how hoc hiw hic => ⟨⟨hv, ?_, ?_, ?_⟩, hv, rfl⟩, by decide, by decide⟩
  · exact State.txInv_iff.2 (by simp [State.powerOn, TxState.reset, maskLegal])
  · exact State.rxInv_iff.2 (by simp [State.powerOn, RxState.reset, maskLegal])
  · exact State.memInv_iff.2 ⟨⟨how, hoc⟩, hiw, hic⟩

/-- Settles O18: the flag is the mode, so it changes in exactly the cases whose rule moves the mode to or
from `Done`. -/
theorem busyChangesOnlyThere : Obligations.BusyChangesOnlyThere := by
  refine ⟨State.busy_iff, fun _ _ _ _ => rfl, fun i s t h => ?_⟩
  obtain ⟨-, hcase⟩ := exec_cases h
  rw [State.busy_ne_iff]
  cases hcase with
  | init => simp
  | busy => simp
  | abort => simp
  | enq h =>
    cases h with
    | busy hm => simp [hm]
    | large hm hp => simp [hp]
    | ok hm hp => simp [hm, hp]
  | step h =>
    cases h with
    | idle hm => simp [hm]
    | start hm => simp [hm]
    | empty hm => simp [hm]
    | range hm => simp [hm]
    | data hm => split_ifs <;> simp [hm]
    | final hm hi => simp [hm, hi]
    | again hm hi => simp [hm, hi]
  | sink h => simp [h.frame.2.1]

end Sys2Proof.Machine
end

section
/-! SUPPORT. How the buffer memories are reached (20_memory.md): the host's accesses, accesses past the capacity
(R56), what each command writes (R51), and what it leaves of the host's side of the state. -/

namespace Sys2Proof.Machine

/-! ### The host's accesses -/

theorem step_of_write {s : State} {sp : Space} {a : Nat} {v : Byte} {rest : List HostMove}
    (h : s.host = .write sp a v :: rest) : step s = hostWrite sp a v rest s := by
  rw [step, h]

theorem step_of_read {s : State} {sp : Space} {a : Nat} {rest : List HostMove} (h : s.host = .read sp a :: rest) :
    step s = hostRead sp a rest s := by
  rw [step, h]

theorem step_of_no_move {s : State} (h : s.host = []) : step s = idle s := by
  rw [step, h]

theorem hostWrite_in {s : State} {sp : Space} {a : Nat} (hv : s.cfg.valid = true) (ha : a < s.cfg.cap sp) (v : Byte)
    (rest : List HostMove) :
    hostWrite sp a v rest s = .next { s.setMem sp ((s.mem sp).write a v) with host := rest } := by
  rw [hostWrite, withBlock, if_pos hv, if_pos ha]

theorem hostRead_in {s : State} {sp : Space} {a : Nat} (hv : s.cfg.valid = true) (ha : a < s.cfg.cap sp)
    (rest : List HostMove) :
    hostRead sp a rest s =
      .next { s with reads := s.reads ++ [⟨sp, a, (s.mem sp).read a⟩], host := rest } := by
  rw [hostRead, withBlock, if_pos hv, if_pos ha]

/-- The host's moves are no part of a memory. -/
theorem State.mem_withHost (s : State) (sp : Space) (moves : List HostMove) :
    State.mem { s with host := moves } sp = s.mem sp := by
  cases sp <;> rfl

/-! ### Accesses at or past the capacity -/

theorem execState_writeStep_bits {s : State} (hm : s.out.mode = .bits) : execState .writeStep s = sendDataBit s := by
  simp only [execState, hm]

theorem execState_readSink_bits {s : State} (hm : s.inp.mode = .bits) (b : Level) :
    execState (.readSink b) s = takeDataBit b s := by
  simp only [execState, hm]

theorem sendDataBit_out_of_range {s : State} (hl : s.out.i < s.out.len) (hc : s.cfg.outCap ≤ s.out.i) :
    sendDataBit s = s.raise .memRange := by
  rw [sendDataBit, if_neg (Nat.not_le.2 hl), State.memRead_out_of_range (sp := .out) hc]

theorem takeDataBit_high_out_of_range {s : State} (hc : s.cfg.inCap ≤ s.inp.i) :
    takeDataBit .high s = s.raise .memRange := by
  rw [takeDataBit, orIntoByte_high_out_of_range hc]

/-! ### Which bytes a command writes -/

/-- The clear of 42_receive.md R142 leaves every address at or past the capacity. -/
theorem read_cleared_of_le {s : State} {a : Nat} (hw : s.inMem.wf = true) (ha : s.cfg.inCap ≤ a) :
    (cleared s).read a = s.inMem.read a := by
  rw [cleared, Memory.read_writeSeq hw, if_neg (by simpa using ha)]

/-- A data bit of 42_receive.md R147 leaves every address but the current byte's. -/
theorem read_orMem_of_ne {b : Level} {s : State} {a : Nat} (hw : s.inMem.wf = true) (ha : a ≠ s.inp.i) :
    (orMem b s).read a = s.inMem.read a := by
  cases b with
  | low => rfl
  | high => rw [orMem, Memory.read_write hw, if_neg ha]

theorem EnqCase.outMem_changed {p : List Byte} {s t : State} {a : Nat} (h : EnqCase p s t) (hw : s.outMem.wf = true)
    (ha : t.outMem.read a ≠ s.outMem.read a) :
    s.out.mode = .done ∧ p.length ≤ s.cfg.outCap ∧ a < p.length := by
  cases h with
  | busy => exact absurd rfl ha
  | large => exact absurd rfl ha
  | ok hm hp =>
    refine ⟨hm, hp, not_le.1 fun hle => ha ?_⟩
    rw [Memory.read_writeSeq hw, if_neg (by omega)]

theorem SinkCase.inMem_changed {b : Level} {s t : State} {a : Nat} (h : SinkCase b s t) (hw : s.inMem.wf = true)
    (ha : t.inMem.read a ≠ s.inMem.read a) :
    (b = .low ∧ s.inp.mode = .done ∧ a < s.cfg.inCap) ∨ (b = .high ∧ s.inp.mode = .bits ∧ a = s.inp.i) := by
  cases h with
  | noRoom hm hb => exact .inl ⟨hb, hm, not_le.1 fun hle => ha (read_cleared_of_le hw hle)⟩
  | start hm hb => exact .inl ⟨hb, hm, not_le.1 fun hle => ha (read_cleared_of_le hw hle)⟩
  | data hm =>
    cases b with
    | low => exact absurd rfl ha
    | high => exact .inr ⟨rfl, hm, not_ne_iff.1 fun hne => ha (read_orMem_of_ne (b := .high) hw hne)⟩
  | _ => exact absurd rfl ha

/-- Only WRITE_ENQUEUE writes `out_mem`. -/
theorem ExecCase.outMem_or_enqueue {i : Instr} {s t : State} (h : ExecCase i s t) :
    t.outMem = s.outMem ∨ ∃ p, i = .writeEnqueue p ∧ EnqCase p s t := by
  cases h with
  | init => exact .inl rfl
  | busy => exact .inl rfl
  | abort => exact .inl rfl
  | enq h => exact .inr ⟨_, rfl, h⟩
  | step h =>
    obtain ⟨-, -, -, -, hm⟩ := h.frame
    exact .inl hm
  | sink h =>
    obtain ⟨-, -, hm⟩ := h.frame
    exact .inl hm

/-- Only READ_SINK writes `in_mem`. -/
theorem ExecCase.inMem_or_sink {i : Instr} {s t : State} (h : ExecCase i s t) :
    t.inMem = s.inMem ∨ ∃ b, i = .readSink b ∧ SinkCase b s t := by
  cases h with
  | init => exact .inl rfl
  | busy => exact .inl rfl
  | abort => exact .inl rfl
  | enq h =>
    obtain ⟨-, -, hm, -⟩ := h.frame
    exact .inl hm
  | step h =>
    obtain ⟨-, -, hm, -⟩ := h.frame
    exact .inl hm
  | sink h => exact .inr ⟨_, rfl, h⟩

/-! ### The host's side and the responses -/

/-- No command touches the host's pending moves, its position or what its reads returned. -/
theorem ExecCase.host_frame {i : Instr} {s t : State} (h : ExecCase i s t) :
    t.reads = s.reads ∧ t.host = s.host ∧ t.pos = s.pos := by
  cases h with
  | init => exact ⟨rfl, rfl, rfl⟩
  | busy => exact ⟨rfl, rfl, rfl⟩
  | abort => exact ⟨rfl, rfl, rfl⟩
  | enq h => cases h <;> exact ⟨rfl, rfl, rfl⟩
  | step h => cases h <;> exact ⟨rfl, rfl, rfl⟩
  | sink h => cases h <;> exact ⟨rfl, rfl, rfl⟩

/-- The same block after other responses. -/
def State.withResponses (s : State) (l : List Response) : State := { s with responses := l }

@[simp] theorem State.withResponses_cfg (s : State) (l : List Response) : (s.withResponses l).cfg = s.cfg := rfl

@[simp] theorem State.withResponses_out (s : State) (l : List Response) : (s.withResponses l).out = s.out := rfl

@[simp] theorem State.withResponses_inp (s : State) (l : List Response) : (s.withResponses l).inp = s.inp := rfl

@[simp] theorem State.withResponses_memRead (s : State) (l : List Response) (sp : Space) (a : Nat) :
    (s.withResponses l).memRead sp a = s.memRead sp a := by
  cases sp <;> rfl

/-- From `s`, a state transformer reads no earlier response and appends the responses `r`. -/
def AppendsResponses (f : State → State) (s : State) (r : List Response) : Prop :=
  ∀ l : List Response, f (s.withResponses l) = (f s).withResponses (l ++ r)

theorem appendsResponses_raise (k : FaultKind) (s : State) : AppendsResponses (fun t => t.raise k) s [] := by
  intro l
  rw [List.append_nil]
  rfl

theorem appendsResponses_sendDataBit (s : State) : ∃ r, AppendsResponses sendDataBit s r := by
  unfold AppendsResponses
  by_cases hl : s.out.len ≤ s.out.i
  · simp only [sendDataBit, State.withResponses_out, hl, if_true]
    exact ⟨[], appendsResponses_raise .txEmptyMessage s⟩
  · simp only [sendDataBit, State.withResponses_out, State.withResponses_memRead, hl, if_false]
    cases s.memRead .out s.out.i with
    | none => exact ⟨[], appendsResponses_raise .memRange s⟩
    | some byte => exact ⟨[⟨(resultOfLevel (dataLevel byte s.out.mask)).code, 0⟩], fun _ => rfl⟩

theorem appendsResponses_startBitCase (b : Level) (s : State) : ∃ r, AppendsResponses (startBitCase b) s r := by
  unfold AppendsResponses
  cases b with
  | low =>
    simp only [startBitCase, State.withResponses_cfg, State.withResponses_inp]
    by_cases hc : s.cfg.inCap ≤ s.inp.i <;> simp only [hc, if_true, if_false]
    · exact ⟨[⟨SinkResult.errorBufferFull.code, 0⟩], fun _ => rfl⟩
    · exact ⟨[⟨SinkResult.ok.code, 0⟩], fun _ => rfl⟩
  | high =>
    simp only [startBitCase, State.withResponses_inp]
    by_cases hi : 1 ≤ s.inp.i <;> simp only [hi, if_true, if_false]
    · exact ⟨[⟨SinkResult.gotMessage.code, s.inp.i⟩], fun _ => rfl⟩
    · exact ⟨[⟨SinkResult.ok.code, 0⟩], fun _ => rfl⟩

theorem appendsResponses_startFrame (s : State) : ∃ r, AppendsResponses startFrame s r := by
  obtain ⟨r, hr⟩ := appendsResponses_startBitCase .low ((s.setInp { s.inp with i := 0 }).setMem .inp (cleared s))
  refine ⟨r, fun l => ?_⟩
  rw [startFrame_eq, startFrame_eq]
  exact hr l

theorem appendsResponses_takeDataBit (b : Level) (s : State) : ∃ r, AppendsResponses (takeDataBit b) s r := by
  cases b with
  | low => exact ⟨[⟨SinkResult.ok.code, 0⟩], fun _ => rfl⟩
  | high =>
    by_cases hc : s.inp.i < s.cfg.inCap
    · refine ⟨[⟨SinkResult.ok.code, 0⟩], fun l => ?_⟩
      have hc' : (s.withResponses l).inp.i < (s.withResponses l).cfg.inCap := hc
      rw [takeDataBit, orIntoByte_high_in hc', takeDataBit, orIntoByte_high_in hc]
      rfl
    · have hc := Nat.le_of_not_lt hc
      refine ⟨[], fun l => ?_⟩
      have hc' : (s.withResponses l).cfg.inCap ≤ (s.withResponses l).inp.i := hc
      rw [takeDataBit_high_out_of_range hc', takeDataBit_high_out_of_range hc]
      exact appendsResponses_raise .memRange s l

/-- 30_encoding.md R80: no command reads an earlier response. -/
theorem appendsResponses_execState (i : Instr) (s : State) : ∃ r, AppendsResponses (execState i) s r := by
  unfold AppendsResponses
  cases i with
  | init => exact ⟨[⟨boolCode true, 0⟩], fun _ => rfl⟩
  | writeBusy => exact ⟨[⟨boolCode s.busy, 0⟩], fun _ => rfl⟩
  | writeAbort => exact ⟨[⟨boolCode true, 0⟩], fun _ => rfl⟩
  | writeEnqueue p =>
    simp only [execState, State.withResponses_out, State.withResponses_cfg]
    by_cases hm : s.out.mode = .done
    · simp only [hm, ne_eq, not_true_eq_false, if_false]
      by_cases hp : s.cfg.outCap < p.length <;> simp only [hp, if_true, if_false]
      · exact ⟨[⟨EnqueueResult.errorTooLarge.code, 0⟩], fun _ => rfl⟩
      · exact ⟨[⟨EnqueueResult.ok.code, 0⟩], fun _ => rfl⟩
    · simp only [hm, ne_eq, not_false_eq_true, if_true]
      exact ⟨[⟨EnqueueResult.errorBusy.code, 0⟩], fun _ => rfl⟩
  | writeStep =>
    simp only [execState, State.withResponses_out]
    cases s.out.mode with
    | done => exact ⟨[⟨StepResult.high.code, 0⟩], fun _ => rfl⟩
    | startBit => exact ⟨[⟨StepResult.low.code, 0⟩], fun _ => rfl⟩
    | bits => exact appendsResponses_sendDataBit s
    | stopBit => exact ⟨[⟨StepResult.high.code, 0⟩], fun _ => rfl⟩
  | readSink b =>
    simp only [execState, State.withResponses_inp]
    cases s.inp.mode with
    | done =>
      cases b with
      | high => exact ⟨[⟨SinkResult.ok.code, 0⟩], fun _ => rfl⟩
      | low => exact appendsResponses_startFrame s
    | startBit => exact appendsResponses_startBitCase b s
    | bits => exact appendsResponses_takeDataBit b s
    | stopBit =>
      cases b with
      | high => exact ⟨[⟨SinkResult.ok.code, 0⟩], fun _ => rfl⟩
      | low => exact ⟨[⟨SinkResult.errorBadMessage.code, 0⟩], fun _ => rfl⟩

/-- The responses a command appends, and that it does the same after any other responses. -/
theorem exec_withResponses {i : Instr} {s t : State} (h : exec i s = .next t) :
    ∃ r, t.responses = s.responses ++ r ∧
      ∀ l : List Response, exec i (s.withResponses l) = .next (t.withResponses (l ++ r)) := by
  obtain ⟨hl, rfl⟩ := exec_eq_next.1 h
  obtain ⟨r, hr⟩ := appendsResponses_execState i s
  exact ⟨r, congrArg State.responses (hr s.responses), fun l => exec_eq_next.2 ⟨hl, hr l⟩⟩

/-- What a transmit command that raises no fault can write: the transmit engine and a response. -/
theorem exec_transmit_eq {i : Instr} {s t : State} {r : List Response} (hi : i.isTransmit = true)
    (h : exec i s = .next t) (hf : t.fault = none) (hr : t.responses = s.responses ++ r) :
    t = { s with out := t.out, outMem := t.outMem, responses := s.responses ++ r } := by
  obtain ⟨⟨-, hsf⟩, hcase⟩ := exec_cases h
  obtain ⟨hc, hinp, hmem, hev⟩ := hcase.transmit_frame hi
  obtain ⟨hrd, hh, hp⟩ := hcase.host_frame
  cases t
  rw [State.mk.injEq]
  exact ⟨hc, rfl, hinp, rfl, hmem, hev, hf.trans hsf.symm, hr, hrd, hh, hp⟩

/-- What a READ_SINK that raises no fault can write: the receive engine, the events and a response. -/
theorem exec_readSink_eq {b : Level} {s u : State} {r : List Response} (h : exec (.readSink b) s = .next u)
    (hf : u.fault = none) (hr : u.responses = s.responses ++ r) :
    u = { s with inp := u.inp, inMem := u.inMem, events := u.events, responses := s.responses ++ r } := by
  obtain ⟨⟨-, hsf⟩, hcase⟩ := exec_cases h
  obtain ⟨hc, hout, hmem⟩ := (exec_readSink_cases h).frame
  obtain ⟨hrd, hh, hp⟩ := hcase.host_frame
  cases u
  rw [State.mk.injEq]
  exact ⟨hc, hout, rfl, hmem, rfl, rfl, hf.trans hsf.symm, hr, hrd, hh, hp⟩

end Sys2Proof.Machine
end

section
/-! The obligations of 20_memory.md, assembled from the rules above. -/

namespace Sys2Proof.Machine

/-- Settles O31: a completing command writes its own engine and appends its response, so each one runs after the
other as it does from `s`. -/
theorem enginesCommute : Obligations.EnginesCommute := by
  intro i b s t u hi ht htf hu huf
  obtain ⟨rt, hrt, htx⟩ := exec_withResponses ht
  obtain ⟨ru, hru, hrx⟩ := exec_withResponses hu
  have hteq := exec_transmit_eq hi ht htf hrt
  have hueq := exec_readSink_eq hu huf hru
  obtain ⟨-, -, -, hw⟩ := enginesShareNoState.1 i _ _ hi (htx (s.responses ++ ru))
  obtain ⟨-, -, hv⟩ := enginesShareNoState.2 b _ _ (hrx (s.responses ++ rt))
  refine ⟨_, _, rt, ru, (congrArg (exec (.readSink b)) hteq).trans (hv t.out t.outMem),
    (congrArg (exec i) hueq).trans (hw u.inp u.inMem u.events), ?_, hrt, hru, rfl, rfl⟩
  rw [hteq, hueq]
  rfl

/-- Settles O32: only WRITE_ENQUEUE and READ_SINK write a memory, at the addresses of their cases. -/
theorem memoryWritesAreThese : Obligations.MemoryWritesAreThese := by
  intro i s t how hiw h
  obtain ⟨-, hcase⟩ := exec_cases h
  constructor
  · intro a ha
    obtain heq | ⟨p, rfl, henq⟩ := hcase.outMem_or_enqueue
    · exact absurd (by rw [heq]) ha
    · exact ⟨p, rfl, henq.outMem_changed how ha⟩
  · intro a ha
    obtain heq | ⟨b, rfl, hsink⟩ := hcase.inMem_or_sink
    · exact absurd (by rw [heq]) ha
    · simpa using hsink.inMem_changed hiw ha

/-- Settles O10: the host's access runs under the block's guard alone, and a write in range is read back as
20_memory.md R55 says. -/
theorem hostAccessesAndIdle : Obligations.HostAccessesAndIdle := by
  refine ⟨fun s sp a v rest hv hw hh ha => ?_, fun s sp a rest hv hh ha => ?_, fun s hl hh => ?_⟩
  · refine ⟨_, (s.mem sp).write a v, (step_of_write hh).trans (hostWrite_in hv ha v rest), rfl, ?_,
      Memory.read_write hw a v⟩
    rw [State.mem_withHost, State.setMem_mem]
  · exact (step_of_read hh).trans (hostRead_in hv ha rest)
  · exact (step_of_no_move hh).trans (operate_live hl.1 hl.2)

/-- Settles O39: both commands make a checked access, which raises MEM_RANGE past the capacity. -/
theorem outOfRangeAccessFaults : Obligations.OutOfRangeAccessFaults := by
  constructor
  · intro s hl hm hi hc
    rw [exec_of_live hl, execState_writeStep_bits hm, sendDataBit_out_of_range hi hc, State.raise_of_none hl.2]
  · intro s hl hm hc
    rw [exec_of_live hl, execState_readSink_bits hm, takeDataBit_high_out_of_range hc, State.raise_of_none hl.2]

end Sys2Proof.Machine
end

section
/-! SUPPORT. What the decoder makes of a command byte that passes its checks (30_encoding.md R76), of format E (R74),
and which streams it refuses (R77). -/

namespace Sys2Proof.Machine

/-! ### The command byte -/

/-- 30_encoding.md R71. -/
theorem opField_toNat (c : Byte) : (opField c).toNat = c.toNat / 32 := by
  have h := c.isLt
  simp [opField, Nat.shiftRight_eq_div_pow]
  omega

/-- 30_encoding.md R71. -/
theorem rsvField_toNat (c : Byte) : (rsvField c).toNat = c.toNat / 2 % 16 := by
  simp [rsvField, Nat.shiftRight_eq_div_pow]

/-- 30_encoding.md R71. -/
theorem bField_toNat (c : Byte) : (bField c).toNat = c.toNat % 2 := by
  simp [bField]

theorem rsvField_ne_zero_iff {c : Byte} : rsvField c ≠ 0#4 ↔ c.toNat / 2 % 16 ≠ 0 := by
  rw [ne_eq, ← BitVec.toNat_inj, rsvField_toNat]
  rfl

theorem bField_eq_one_iff {c : Byte} : bField c = 1#1 ↔ c.toNat % 2 = 1 := by
  rw [← BitVec.toNat_inj, bField_toNat]
  rfl

/-- 30_encoding.md R75: the reserved values of OP. -/
theorem opOfField_eq_none_iff {f : BitVec 3} : opOfField f = none ↔ f.toNat = 0 ∨ f.toNat = 7 := by
  revert f
  decide

theorem opOfField_eq_readSink_iff {f : BitVec 3} : opOfField f = some .readSink ↔ f.toNat = 6 := by
  revert f
  decide

/-! ### The checks on the command byte -/

/-- 30_encoding.md R77: the command bytes that are illegal whatever follows them. -/
def IllegalByte (c : Byte) : Prop :=
  opOfField (opField c) = none ∨ rsvField c ≠ 0#4 ∨ (bField c = 1#1 ∧ opOfField (opField c) ≠ some .readSink)

/-- R77's conditions on the fields, as conditions on the byte's number. -/
theorem illegalByte_iff {c : Byte} : IllegalByte c ↔
    (c.toNat / 32 = 0 ∨ c.toNat / 32 = 7) ∨ c.toNat / 2 % 16 ≠ 0 ∨ (c.toNat % 2 = 1 ∧ c.toNat / 32 ≠ 6) := by
  rw [IllegalByte, opOfField_eq_none_iff, rsvField_ne_zero_iff, bField_eq_one_iff, ne_eq (opOfField _),
    opOfField_eq_readSink_iff, opField_toNat]

theorem decode_illegal_of_illegalByte {c : Byte} (h : IllegalByte c) (idxW : Nat) (r : List Byte) :
    ∃ why, decode idxW (c :: r) = .illegal why := by
  rw [decode_cons]
  cases hop : opOfField (opField c) with
  | none => exact ⟨_, rfl⟩
  | some op =>
    dsimp only
    split_ifs with hrsv hstray
    · exact ⟨_, rfl⟩
    · exact ⟨_, rfl⟩
    · obtain hnone | hrsv' | ⟨hbit, hne⟩ := h
      · cases hop.symm.trans hnone
      · exact absurd hrsv' hrsv
      · exact absurd ⟨fun he => hne (he ▸ hop), hbit⟩ hstray

/-- 30_encoding.md R71, R75: every other command byte is made of an operation's OP, RSV 0, and a B that is 0 unless OP
is 110. -/
theorem eq_cmdByte_of_not_illegalByte {c : Byte} (h : ¬IllegalByte c) :
    ∃ op b, c = cmdByte (fieldOfOp op) 0#4 b ∧ (op ≠ .readSink → b = 0#1) := by
  obtain ⟨hnone, hrsv, hstray⟩ : _ ∧ _ ∧ _ := by simpa only [IllegalByte, not_or] using h
  obtain ⟨op, hop⟩ := Option.ne_none_iff_exists'.1 hnone
  refine ⟨op, bField c, ?_, fun hne => ?_⟩
  · rw [fieldOfOp_of_opOfField hop, ← not_not.1 hrsv, cmdByte_fields]
  · refine (BitVec.eq_zero_or_eq_one _).resolve_right fun hbit => hstray ⟨hbit, fun he => hne ?_⟩
    exact Option.some.inj (hop.symm.trans he)

/-- 30_encoding.md R76: such a command byte passes the decoder's checks. -/
theorem decode_cmdByte (idxW : Nat) {op : Op} {b : BitVec 1} (hb : op ≠ .readSink → b = 0#1) (r : List Byte) :
    decode idxW (cmdByte (fieldOfOp op) 0#4 b :: r) =
      decodeOperands idxW op (cmdByte (fieldOfOp op) 0#4 b) r := by
  obtain ⟨hop, hrsv, hbit⟩ := fields_cmdByte (fieldOfOp op) 0#4 b
  have hstray : ¬(op ≠ .readSink ∧ b = 1#1) := fun ⟨hne, h1⟩ => absurd ((hb hne).symm.trans h1) (by decide)
  simp only [decode_cons, hop, opOfField_fieldOfOp, hrsv, hbit, ne_eq, not_true_eq_false, if_false]
  exact if_neg hstray

/-- 30_encoding.md R75: WRITE_ENQUEUE's command byte. -/
theorem cmdByte_eq_0x40_iff {op : Op} {b : BitVec 1} (hb : op ≠ .readSink → b = 0#1) :
    cmdByte (fieldOfOp op) 0#4 b = 0x40#8 ↔ op = .writeEnqueue := by
  cases op with
  | readSink =>
    revert b
    decide
  | _ =>
    rw [hb nofun]
    decide

/-! ### Format E -/

/-- 30_encoding.md R74: LEN of the right width, then LEN payload bytes. -/
theorem decodeEnqueue_leBytes {idxW : Nat} {p : List Byte} (hp : p.length < 2 ^ idxW) (rest : List Byte) :
    decodeEnqueue idxW (leBytes (lenBytes idxW) p.length ++ p ++ rest) = .ok (.writeEnqueue p) rest := by
  have hlen : leValue (leBytes (lenBytes idxW) p.length) = p.length := by
    rw [leValue_leBytes, Nat.mod_eq_of_lt (lt_of_lt_of_le hp (pow_idxW_le idxW))]
  have htake : (leBytes (lenBytes idxW) p.length ++ p ++ rest).take (lenBytes idxW) =
      leBytes (lenBytes idxW) p.length := by
    rw [List.append_assoc, List.take_left' (leBytes_length ..)]
  have hdrop : (leBytes (lenBytes idxW) p.length ++ p ++ rest).drop (lenBytes idxW) = p ++ rest := by
    rw [List.append_assoc, List.drop_left' (leBytes_length ..)]
  rw [decodeEnqueue, htake, hdrop, hlen, if_neg (by simp), if_neg (by omega), if_neg (by simp),
    List.take_left, List.drop_left]

theorem eq_leBytes_of_decodeEnqueue_ok {idxW : Nat} {r rest : List Byte} {i : Instr}
    (h : decodeEnqueue idxW r = .ok i rest) :
    ∃ p, i = .writeEnqueue p ∧ p.length < 2 ^ idxW ∧ r = leBytes (lenBytes idxW) p.length ++ p ++ rest := by
  unfold decodeEnqueue at h
  split_ifs at h with hshort hwide hend
  cases h
  have hlen : ((r.drop (lenBytes idxW)).take (leValue (r.take (lenBytes idxW)))).length =
      leValue (r.take (lenBytes idxW)) := List.length_take_of_le (Nat.le_of_not_lt hend)
  have htake : (r.take (lenBytes idxW)).length = lenBytes idxW := List.length_take_of_le (Nat.le_of_not_lt hshort)
  have hle := leBytes_leValue (r.take (lenBytes idxW))
  rw [htake] at hle
  refine ⟨_, rfl, by omega, ?_⟩
  rw [hlen, hle, List.append_assoc, List.take_append_drop, List.take_append_drop]

/-- 30_encoding.md R77: format E's illegal case. -/
theorem decodeEnqueue_illegal_iff {idxW : Nat} {r : List Byte} :
    (∃ why, decodeEnqueue idxW r = .illegal why) ↔
      lenBytes idxW ≤ r.length ∧ 2 ^ idxW ≤ leValue (r.take (lenBytes idxW)) := by
  unfold decodeEnqueue
  split_ifs with hshort hwide hend
  · simp [hshort]
  · simp [hwide, Nat.le_of_not_lt hshort]
  · simp [hwide]
  · simp [hwide]

/-- Of the operands only LEN can be illegal. -/
theorem decodeOperands_illegal_iff {idxW : Nat} {op : Op} {c : Byte} {r : List Byte} :
    (∃ why, decodeOperands idxW op c r = .illegal why) ↔
      op = .writeEnqueue ∧ lenBytes idxW ≤ r.length ∧ 2 ^ idxW ≤ leValue (r.take (lenBytes idxW)) := by
  cases op with
  | writeEnqueue => simpa [decodeOperands] using decodeEnqueue_illegal_iff
  | _ => simp [decodeOperands]

/-! ### The whole decoder -/

/-- 30_encoding.md R72 to R76: a well-formed command decodes to itself, whatever follows it. -/
theorem decode_encode {idxW : Nat} {i : Instr} (hi : i.wf idxW = true) (rest : List Byte) :
    decode idxW (encode idxW i ++ rest) = .ok i rest := by
  cases i with
  | init => exact decode_cmdByte idxW (op := .init) (fun _ => rfl) rest
  | writeBusy => exact decode_cmdByte idxW (op := .writeBusy) (fun _ => rfl) rest
  | writeAbort => exact decode_cmdByte idxW (op := .writeAbort) (fun _ => rfl) rest
  | writeStep => exact decode_cmdByte idxW (op := .writeStep) (fun _ => rfl) rest
  | writeEnqueue p =>
    have hp : p.length < 2 ^ idxW := of_decide_eq_true hi
    exact (decode_cmdByte idxW (op := .writeEnqueue) (fun _ => rfl) _).trans (decodeEnqueue_leBytes hp rest)
  | readSink b =>
    refine (decode_cmdByte idxW (op := .readSink) (b := bitOfLevel b) (absurd rfl) rest).trans ?_
    obtain ⟨-, -, hbit⟩ := fields_cmdByte (fieldOfOp .readSink) 0#4 (bitOfLevel b)
    rw [decodeOperands, hbit, levelOfBit_bitOfLevel]

/-- 30_encoding.md R76: the operands of an accepted command are those its encoding has after the command byte. -/
theorem eq_encode_of_decodeOperands_ok {idxW : Nat} {op : Op} {b : BitVec 1} {r rest : List Byte} {i : Instr}
    (hb : op ≠ .readSink → b = 0#1)
    (h : decodeOperands idxW op (cmdByte (fieldOfOp op) 0#4 b) r = .ok i rest) :
    i.wf idxW = true ∧ cmdByte (fieldOfOp op) 0#4 b :: r = encode idxW i ++ rest := by
  cases op with
  | writeEnqueue =>
    obtain ⟨p, rfl, hp, rfl⟩ := eq_leBytes_of_decodeEnqueue_ok h
    rw [hb nofun]
    exact ⟨decide_eq_true hp, rfl⟩
  | readSink =>
    obtain ⟨-, -, hbit⟩ := fields_cmdByte (fieldOfOp .readSink) 0#4 b
    rw [decodeOperands, hbit] at h
    cases h
    exact ⟨rfl, by simp [encode]⟩
  | _ =>
    cases h
    rw [hb nofun]
    exact ⟨rfl, rfl⟩

/-- 30_encoding.md R76: the decoder accepts nothing but encodings of well-formed commands. -/
theorem eq_encode_of_decode_ok {idxW : Nat} {bs rest : List Byte} {i : Instr} (h : decode idxW bs = .ok i rest) :
    i.wf idxW = true ∧ bs = encode idxW i ++ rest := by
  cases bs with
  | nil => cases h
  | cons c r =>
    have hc : ¬IllegalByte c := fun hc => by
      obtain ⟨why, hill⟩ := decode_illegal_of_illegalByte hc idxW r
      cases h.symm.trans hill
    obtain ⟨op, b, rfl, hb⟩ := eq_cmdByte_of_not_illegalByte hc
    exact eq_encode_of_decodeOperands_ok hb ((decode_cmdByte idxW hb r).symm.trans h)

/-- 30_encoding.md R77: a command is illegal for its command byte, or for format E's LEN. -/
theorem decode_illegal_iff {idxW : Nat} {c : Byte} {r : List Byte} :
    (∃ why, decode idxW (c :: r) = .illegal why) ↔
      IllegalByte c ∨
      (c = 0x40#8 ∧ lenBytes idxW ≤ r.length ∧ 2 ^ idxW ≤ leValue (r.take (lenBytes idxW))) := by
  by_cases hc : IllegalByte c
  · exact iff_of_true (decode_illegal_of_illegalByte hc idxW r) (.inl hc)
  · rw [or_iff_right hc]
    obtain ⟨op, b, rfl, hb⟩ := eq_cmdByte_of_not_illegalByte hc
    rw [decode_cmdByte idxW hb, decodeOperands_illegal_iff, cmdByte_eq_0x40_iff hb]

end Sys2Proof.Machine
end

section
/-! SUPPORT. The command at the front of the host's moves (30_encoding.md R70), and the responses that commands give
(R80 to R82). -/

namespace Sys2Proof.Machine

/-! ### The command at the front of the host's moves -/

theorem step_of_byte {s : State} {b : Byte} {rest : List HostMove} (h : s.host = .byte b :: rest) :
    step s = stepCommand s := by
  rw [step, h]

/-- A command that decodes has a first byte. -/
theorem exists_byte_of_decode_ok {idxW : Nat} {moves : List HostMove} {i : Instr} {rest : List Byte}
    (h : decode idxW (leadingBytes moves) = .ok i rest) : ∃ b r, moves = .byte b :: r := by
  match moves, h with
  | .byte b :: r, _ => exact ⟨b, r, rfl⟩

/-- 30_encoding.md R70: the command is taken and run as one operation. -/
theorem stepCommand_of_fetch {s : State} {i : Instr} {rest : List Byte} (h : s.fetch = .ok i rest) :
    stepCommand s = exec i (s.consume (encodedLength s.cfg.idxW i)) := by
  rw [stepCommand, h]
  dsimp only
  rw [exec_eq_operate]
  exact operate_operate rfl rfl

/-! ### Responses -/

/-- 30_encoding.md R80 to R82: the responses a command can give, each result's code with its COUNT. -/
def ListedResponse (s : State) (r : Response) : Instr → Prop
  | .init => r = ⟨1#4, 0⟩
  | .writeEnqueue _ => r = ⟨0#4, 0⟩ ∨ r = ⟨2#4, 0⟩ ∨ r = ⟨3#4, 0⟩
  | .writeBusy => r = ⟨0#4, 0⟩ ∨ r = ⟨1#4, 0⟩
  | .writeAbort => r = ⟨1#4, 0⟩
  | .writeStep => r = ⟨0#4, 0⟩ ∨ r = ⟨1#4, 0⟩
  | .readSink _ => r = ⟨0#4, 0⟩ ∨ r = ⟨1#4, s.inp.i⟩ ∨ r = ⟨3#4, 0⟩ ∨ r = ⟨4#4, 0⟩

/-- What a command does about its response: it gives one of those listed, or raises a fault and nothing else. -/
def RespondsOrRaises (i : Instr) (s t : State) : Prop :=
  (∃ k, t = s.raise k) ∨
    t.fault = s.fault ∧ ∃ r, ListedResponse s r i ∧ t.responses = s.responses ++ [r]

theorem EnqCase.respondsOrRaises {p : List Byte} {s t : State} (h : EnqCase p s t) :
    RespondsOrRaises (.writeEnqueue p) s t := by
  cases h with
  | busy => exact .inr ⟨rfl, _, .inr (.inr rfl), rfl⟩
  | large => exact .inr ⟨rfl, _, .inr (.inl rfl), rfl⟩
  | ok => exact .inr ⟨rfl, _, .inl rfl, rfl⟩

theorem StepCase.respondsOrRaises {s t : State} (h : StepCase s t) : RespondsOrRaises .writeStep s t := by
  cases h with
  | empty => exact .inl ⟨_, rfl⟩
  | range => exact .inl ⟨_, rfl⟩
  | start => exact .inr ⟨rfl, _, .inl rfl, rfl⟩
  | idle => exact .inr ⟨rfl, _, .inr rfl, rfl⟩
  | final => exact .inr ⟨rfl, _, .inr rfl, rfl⟩
  | again => exact .inr ⟨rfl, _, .inr rfl, rfl⟩
  | data =>
    refine .inr ⟨rfl, _, ?_, rfl⟩
    split_ifs
    · exact .inl rfl
    · exact .inr rfl

theorem SinkCase.respondsOrRaises {b : Level} {s t : State} (h : SinkCase b s t) :
    RespondsOrRaises (.readSink b) s t := by
  cases h with
  | range => exact .inl ⟨_, rfl⟩
  | message => exact .inr ⟨rfl, _, .inr (.inl rfl), rfl⟩
  | noRoom => exact .inr ⟨rfl, _, .inr (.inr (.inl rfl)), rfl⟩
  | full => exact .inr ⟨rfl, _, .inr (.inr (.inl rfl)), rfl⟩
  | badStop => exact .inr ⟨rfl, _, .inr (.inr (.inr rfl)), rfl⟩
  | idle | start | noByte | nextByte | data | goodStop => exact .inr ⟨rfl, _, .inl rfl, rfl⟩

theorem ExecCase.respondsOrRaises {i : Instr} {s t : State} (h : ExecCase i s t) : RespondsOrRaises i s t := by
  cases h with
  | init => exact .inr ⟨rfl, _, rfl, rfl⟩
  | abort => exact .inr ⟨rfl, _, rfl, rfl⟩
  | busy =>
    refine .inr ⟨rfl, _, ?_, rfl⟩
    cases s.busy
    · exact .inl rfl
    · exact .inr rfl
  | enq h => exact h.respondsOrRaises
  | step h => exact h.respondsOrRaises
  | sink h => exact h.respondsOrRaises

/-- 30_encoding.md R82: COUNT is the received length for GotMessage, and 0 otherwise. -/
theorem ListedResponse.count {i : Instr} {s : State} {r : Response} (h : ListedResponse s r i) :
    ((∃ b, i = .readSink b) ∧ r.code = 1#4 → r.count = s.inp.i) ∧
      (¬((∃ b, i = .readSink b) ∧ r.code = 1#4) → r.count = 0) := by
  cases i with
  | readSink b => obtain rfl | rfl | rfl | rfl := h <;> simp
  | writeEnqueue p => obtain rfl | rfl | rfl := h <;> simp
  | writeBusy => obtain rfl | rfl := h <;> simp
  | writeStep => obtain rfl | rfl := h <;> simp
  | init => cases h; simp
  | writeAbort => cases h; simp

/-- 30_encoding.md R80: a response added to the history is a listed one, since raising a fault adds none. -/
theorem listedResponse_of_append {i : Instr} {s t : State} {r : Response} (h : exec i s = .next t)
    (hr : t.responses = s.responses ++ [r]) : ListedResponse s r i := by
  obtain ⟨k, rfl⟩ | ⟨-, r', hlist, hr'⟩ := (exec_cases h).2.respondsOrRaises
  · simp at hr
  · rw [hr', List.append_cancel_left_eq, List.singleton_inj] at hr
    exact hr ▸ hlist

end Sys2Proof.Machine
end

section
/-! The obligations of 30_encoding.md, assembled from the rules above. -/

namespace Sys2Proof.Machine

/-- Settles O5: the command byte passes the checks, and format E's LEN and message are read back. -/
theorem decodeInvertsEncode : Obligations.DecodeInvertsEncode :=
  fun _ _ rest hi => decode_encode hi rest

/-- Settles O6: a byte that passes the checks is an operation's command byte, and its operands are encoded. -/
theorem decodedIsEncoded : Obligations.DecodedIsEncoded :=
  fun _ _ _ _ h => eq_encode_of_decode_ok h

/-- Settles O7: the command byte fails a check, or WRITE_ENQUEUE's LEN is too wide. -/
theorem illegalCommandsAreThese : Obligations.IllegalCommandsAreThese := by
  intro idxW c r
  rw [decode_illegal_iff, illegalByte_iff, lenBytes]
  simp only [or_assoc]

/-- Settles O35: a command gives one of its listed responses, or raises a fault on a block that had none. -/
theorem oneResponsePerCommand : Obligations.OneResponsePerCommand := by
  intro i s t h
  obtain ⟨⟨-, hf⟩, hcase⟩ := exec_cases h
  obtain ⟨k, rfl⟩ | ⟨htf, r, hlist, hr⟩ := hcase.respondsOrRaises
  · exact ⟨fun _ => rfl, fun hn => by simp [hf] at hn⟩
  · exact ⟨fun hne => absurd (htf.trans hf) hne, fun _ => ⟨r.code, r.count, hr, hlist.count⟩⟩

/-- Settles O36: the response given is a listed one, whose code is read off. -/
theorem resultCodesAreListed : Obligations.ResultCodesAreListed := by
  refine ⟨fun i s t r h hr => ?_, rfl, rfl, rfl, rfl⟩
  have hlist := listedResponse_of_append h hr
  cases i with
  | init => exact congrArg Response.code hlist
  | writeAbort => exact congrArg Response.code hlist
  | writeBusy => exact hlist.imp (congrArg Response.code) (congrArg Response.code)
  | writeStep => exact hlist.imp (congrArg Response.code) (congrArg Response.code)
  | writeEnqueue p => obtain rfl | rfl | rfl := hlist <;> simp
  | readSink b => obtain rfl | rfl | rfl | rfl := hlist <;> simp

/-- Settles O4: the legal words are their commands' encodings, and the others are decoded. -/
theorem specWordsDecode : Obligations.SpecWordsDecode :=
  ⟨decode_encode (i := .init) rfl [], decode_encode (i := .writeEnqueue [0x48#8, 0x49#8]) rfl [],
    decode_encode (i := .writeEnqueue []) rfl [], decode_encode (i := .writeBusy) rfl [],
    decode_encode (i := .writeAbort) rfl [], decode_encode (i := .writeStep) rfl [],
    decode_encode (i := .readSink .low) rfl [], decode_encode (i := .readSink .high) rfl [],
    by decide, by decide, by decide, by decide, by decide⟩

/-- Settles O9: the step takes the decoded command's bytes, and the guard on the step is the command's own. -/
theorem stepRunsDecodedCommand : Obligations.StepRunsDecodedCommand := by
  intro s i rest h
  obtain ⟨b, r, hhost⟩ := exists_byte_of_decode_ok h
  exact (step_of_byte hhost).trans (stepCommand_of_fetch h)

end Sys2Proof.Machine
end

section
/-! SUPPORT. An invalid configuration (40_session.md R100, 60_exceptions.md R207) and INIT (R101). -/

namespace Sys2Proof

/-! ### Validity -/

/-- 40_session.md R100, one clause per buffer. -/
theorem Config.buffersValid_iff {c : Config} : c.buffersValid = true ↔
    ¬(c.inPresent = false ∧ c.inCap ≠ 0) ∧ ¬(c.outPresent = false ∧ c.outCap ≠ 0) := by
  simp [Config.buffersValid, or_iff_not_imp_left]

theorem Config.valid_of_not_buffersValid {c : Config} (h : c.buffersValid = false) : c.valid = false := by
  rw [Config.valid, h, Bool.false_and]

end Sys2Proof

namespace Sys2Proof.Machine

/-! ### The guard on a block that does not exist -/

/-- The guard of the host's own accesses, which a recorded fault does not stop (log 9). -/
theorem withBlock_invalid {s : State} {r : Result} (hv : s.cfg.valid = false) :
    withBlock s r = .refused .invalidConfig := by
  simp [withBlock, hv]

theorem exec_invalid {s : State} (hv : s.cfg.valid = false) (i : Instr) : exec i s = .refused .invalidConfig :=
  (exec_eq_operate i s).trans (operate_invalid hv)

/-- Every host move, and the idle step, runs under the block's guard. -/
theorem step_invalid {s : State} (hv : s.cfg.valid = false) : step s = .refused .invalidConfig := by
  cases hh : s.host with
  | nil => exact (step_of_no_move hh).trans (operate_invalid hv)
  | cons m rest =>
    cases m with
    | byte b => exact (step_of_byte hh).trans (operate_invalid hv)
    | write sp a v => exact (step_of_write hh).trans (withBlock_invalid hv)
    | read sp a => exact (step_of_read hh).trans (withBlock_invalid hv)

/-! ### INIT -/

/-- The state INIT leaves (40_session.md R101). -/
theorem eq_of_exec_init {s t : State} (h : exec .init s = .next t) :
    t = { s with
      out := ⟨.done, 0, 0x01#8, 0⟩, inp := ⟨.done, 0, 0x01#8⟩, responses := s.responses ++ [⟨1#4, 0⟩] } := by
  obtain ⟨-, hcase⟩ := exec_cases h
  cases hcase with
  | init => rfl

end Sys2Proof.Machine
end

section
/-! The obligations of 40_session.md, assembled from the rules above. -/

namespace Sys2Proof.Machine

/-- Settles O3: R100's check is part of the guard that every step and every command runs under. -/
theorem invalidConfigurationHasNoBlock : Obligations.InvalidConfigurationHasNoBlock := by
  refine ⟨fun _ => Config.buffersValid_iff, fun s hb => ?_, fun s t h => ?_⟩
  · have hv := Config.valid_of_not_buffersValid hb
    exact ⟨step_invalid hv, exec_invalid hv⟩
  · rw [eq_of_exec_init h]

/-- Settles O11: a live block runs INIT, whose next state has the transmit mode `Done`; its command byte is its
encoding. -/
theorem initResetsBothEngines : Obligations.InitResetsBothEngines := by
  refine ⟨fun s hl => exec_of_live hl .init, fun s t h => ?_, fun idxW r => decode_encode (i := .init) rfl r⟩
  rw [eq_of_exec_init h]
  rfl

end Sys2Proof.Machine
end

section
/-! SUPPORT. The transmit engine: what WRITE_ENQUEUE and WRITE_STEP do in each case of their rules (41_transmit.md R110
to R116), and the registers and levels of each bit interval of a message (R119). -/

namespace Sys2Proof.Machine

/-! ### A case of its rule says what a command does -/

/-- 41_transmit.md R114: the response's code is the data bit at the mask. -/
theorem code_dataLevel (byte mask : Byte) :
    (resultOfLevel (dataLevel byte mask)).code = if byte &&& mask = 0 then 0#4 else 1#4 := by
  unfold dataLevel
  split_ifs <;> rfl

theorem sendDataBit_in {s : State} (hl : s.out.i < s.out.len) (hc : s.out.i < s.cfg.outCap) :
    sendDataBit s = (s.setOut (afterDataBit s.out)).respond
      (if s.outMem.read s.out.i &&& s.out.mask = 0 then 0#4 else 1#4) 0 := by
  rw [sendDataBit, if_neg (Nat.not_le_of_lt hl), State.memRead_in (sp := .out) hc]
  simp only [code_dataLevel, State.mem_out]

/-- The cases of WRITE_STEP do not overlap: a case that holds is the one the command takes. -/
theorem StepCase.exec_eq {s t : State} (h : StepCase s t) (hl : s.live) : exec .writeStep s = .next t := by
  rw [exec_of_live hl]
  cases h with
  | idle hm => simp only [execState, hm]; rfl
  | start hm => simp only [execState, hm]; rfl
  | empty hm hle => rw [execState_writeStep_bits hm, sendDataBit, if_pos hle]
  | range hm hlt hc => rw [execState_writeStep_bits hm, sendDataBit_out_of_range hlt hc]
  | data hm hlt hc => rw [execState_writeStep_bits hm, sendDataBit_in hlt hc]; rfl
  | final hm hi => simp only [execState, hm, afterStopBit, if_pos hi]; rfl
  | again hm hi => simp only [execState, hm, afterStopBit, if_neg hi]; rfl

/-- The cases of WRITE_ENQUEUE do not overlap: a case that holds is the one the command takes. -/
theorem EnqCase.exec_eq {p : List Byte} {s t : State} (h : EnqCase p s t) (hl : s.live) :
    exec (.writeEnqueue p) s = .next t := by
  rw [exec_of_live hl]
  cases h with
  | busy hm => rw [execState, if_pos hm]; rfl
  | large hm hp => rw [execState, if_neg (not_not.2 hm), if_pos hp]; rfl
  | ok hm hp => rw [execState, if_neg (not_not.2 hm), if_neg (Nat.not_lt_of_le hp)]; rfl

/-- 41_transmit.md R116: past the message the fault is recorded, and nothing else changes. -/
theorem exec_writeStep_empty {s : State} (hl : s.live) (hm : s.out.mode = .bits) (hle : s.out.len ≤ s.out.i) :
    exec .writeStep s = .next { s with fault := some .txEmptyMessage } := by
  rw [(StepCase.empty hm hle).exec_eq hl, State.raise_of_none hl.2]

/-- 20_memory.md R55: the copied message, and past it what the buffer held. -/
theorem Memory.read_writeSeq_zero {m : Memory} (hw : m.wf = true) (p : List Byte) (a : Nat) :
    (m.writeSeq 0 p).read a = if a < p.length then p.getD a 0 else m.read a := by
  simp [Memory.read_writeSeq hw]

/-! ### The busy flag's code -/

/-- 41_transmit.md R117, with R32's flag and R81's codes. -/
theorem boolCode_busy (s : State) : boolCode s.busy = if s.out.mode = .done then 0#4 else 1#4 := by
  unfold State.busy
  split_ifs with hm <;> simp [hm, boolCode]

/-! ### Several WRITE_STEPs -/

theorem writeSteps_succ (n : Nat) : writeSteps (n + 1) = writeSteps n ++ [.writeStep] :=
  List.replicate_succ'

/-- One more WRITE_STEP. -/
theorem execAll_writeSteps_succ {n : Nat} {s t u : State} (h : execAll (writeSteps n) s = .next t)
    (hs : exec .writeStep t = .next u) : execAll (writeSteps (n + 1)) s = .next u := by
  rw [writeSteps_succ, execAll_append h, execAll_cons hs, execAll_nil]

/-- 41_transmit.md R112: an idle transmitter drives high for as long as it is stepped. -/
theorem execAll_writeSteps_done {s : State} (hl : s.live) (hm : s.out.mode = .done) (n : Nat) :
    execAll (writeSteps n) s = .next { s with responses := s.responses ++ List.replicate n ⟨1#4, 0⟩ } := by
  induction n with
  | zero => simp [writeSteps]
  | succ n ih =>
    rw [execAll_writeSteps_succ ih (StepCase.exec_eq (.idle hm) hl), List.replicate_succ', List.append_assoc]

/-! ### The bit intervals of a message -/

/-- The registers before bit interval `j` of byte `k` (41_transmit.md R113 to R115): interval 0 is the start bit's,
1 to 8 are the data bits', 9 is the stop bit's. -/
def byteRegs (len k : Nat) : Nat → TxState
  | 0 => ⟨.startBit, k, 1#8, len⟩
  | j + 1 => if j < 8 then ⟨.bits, k, BitVec.twoPow 8 j, len⟩ else ⟨.stopBit, k + 1, 0x80#8, len⟩

/-- The registers before bit interval `n` of a message of `len` bytes, counted from its first start bit; past the
message, those its final stop bit leaves. -/
def lineRegs (len n : Nat) : TxState :=
  if n < 10 * len then byteRegs len (n / 10) (n % 10) else ⟨.done, len, 0x80#8, len⟩

/-- The level of bit interval `n` of the message that the first `len` bytes of a memory hold. -/
def lineLevel (m : Memory) (len n : Nat) : Level :=
  if n < 10 * len then (byteImage (m.read (n / 10))).getD (n % 10) .high else .high

theorem lineRegs_eq_byteRegs {len n k j : Nat} (hn : n = 10 * k + j) (hk : k < len) (hj : j < 10) :
    lineRegs len n = byteRegs len k j := by
  rw [lineRegs, if_pos (by omega), show n / 10 = k by omega, show n % 10 = j by omega]

theorem lineRegs_of_le {len n : Nat} (hn : 10 * len ≤ n) : lineRegs len n = ⟨.done, len, 0x80#8, len⟩ :=
  if_neg (Nat.not_lt_of_le hn)

theorem lineLevel_eq_byteImage {m : Memory} {len n k j : Nat} (hn : n = 10 * k + j) (hk : k < len) (hj : j < 10) :
    lineLevel m len n = (byteImage (m.read k)).getD j .high := by
  rw [lineLevel, if_pos (by omega), show n / 10 = k by omega, show n % 10 = j by omega]

theorem byteRegs_mode_ne_done (len k j : Nat) : (byteRegs len k j).mode ≠ .done := by
  cases j with
  | zero => exact nofun
  | succ j =>
    rw [byteRegs]
    split_ifs <;> exact nofun

theorem lineRegs_mode_eq_done_iff {len n : Nat} : (lineRegs len n).mode = .done ↔ 10 * len ≤ n := by
  unfold lineRegs
  split_ifs with hn
  · exact iff_of_false (byteRegs_mode_ne_done len _ _) (by omega)
  · exact iff_of_true rfl (by omega)

theorem byteImage_data (b : Byte) {j : Nat} (hj : j < 8) :
    (byteImage b).getD (j + 1) .high = levelOfBool (b.getLsbD j) := by
  interval_cases j <;> rfl

theorem levelResponse_levelOfBool (b : Bool) : levelResponse (levelOfBool b) = ⟨if b then 1#4 else 0#4, 0⟩ := by
  cases b <;> rfl

/-- The mask at position `j` selects data bit `j` (00_scope.md R7). -/
theorem and_twoPow_eq_zero_iff (b : Byte) {j : Nat} (hj : j < 8) :
    b &&& BitVec.twoPow 8 j = 0 ↔ b.getLsbD j = false := by
  rw [BitVec.and_twoPow]
  cases b.getLsbD j
  · simp
  · revert j
    decide

/-- The cursor moves one position to the left (41_transmit.md R114). -/
theorem twoPow_shiftLeft_one (j : Nat) : BitVec.twoPow 8 j <<< 1 = BitVec.twoPow 8 (j + 1) :=
  (BitVec.shiftLeft_add ..).symm

theorem twoPow_eq_lastMask_iff {j : Nat} (hj : j < 8) : BitVec.twoPow 8 j = 0x80#8 ↔ j = 7 := by
  revert j
  decide

/-- 41_transmit.md R114: past position 7 the stop bit follows, otherwise the next data bit. -/
theorem byteRegs_after_data (len k : Nat) {j : Nat} (hj : j < 8) :
    (if BitVec.twoPow 8 j = 0x80#8 then ⟨.stopBit, k + 1, BitVec.twoPow 8 j, len⟩
      else ⟨.bits, k, BitVec.twoPow 8 j <<< 1, len⟩) = byteRegs len k (j + 2) := by
  by_cases h7 : j = 7
  · subst h7
    rfl
  · rw [if_neg (mt (twoPow_eq_lastMask_iff hj).1 h7), byteRegs, if_pos (by omega), twoPow_shiftLeft_one]

/-- 41_transmit.md R114, with the mask at position `j`: data bit `j` is sent. -/
theorem exec_writeStep_dataBit {s : State} {len k j : Nat} (hl : s.live)
    (ho : s.out = ⟨.bits, k, BitVec.twoPow 8 j, len⟩) (hj : j < 8) (hk : k < len) (hc : k < s.cfg.outCap) :
    exec .writeStep s = .next { s with
      out := byteRegs len k (j + 2)
      responses := s.responses ++ [levelResponse (levelOfBool ((s.outMem.read k).getLsbD j))] } := by
  rw [(StepCase.data (by rw [ho]) (by rwa [ho]) (by rwa [ho])).exec_eq hl]
  simp only [ho, byteRegs_after_data len k hj, and_twoPow_eq_zero_iff _ hj, levelResponse_levelOfBool]
  cases (s.outMem.read k).getLsbD j <;> rfl

/-- Before its stop bit, a byte's bit interval sends its level and is followed by the next interval. -/
theorem exec_writeStep_byteRegs {s : State} {len k j : Nat} (hl : s.live) (ho : s.out = byteRegs len k j) (hj : j < 9)
    (hk : k < len) (hc : k < s.cfg.outCap) :
    exec .writeStep s = .next { s with
      out := byteRegs len k (j + 1)
      responses := s.responses ++ [levelResponse ((byteImage (s.outMem.read k)).getD j .high)] } := by
  cases j with
  | zero =>
    rw [StepCase.exec_eq (.start (by rw [ho]; rfl)) hl, ho]
    rfl
  | succ j =>
    have hj : j < 8 := by omega
    rw [byteRegs, if_pos hj] at ho
    rw [byteImage_data _ hj]
    exact exec_writeStep_dataBit hl ho hj hk hc

/-- 41_transmit.md R115: after a byte's stop bit comes the next byte's start bit, or the message is complete. -/
theorem exec_writeStep_stopBit {s : State} {len k : Nat} (hl : s.live) (ho : s.out = ⟨.stopBit, k + 1, 0x80#8, len⟩)
    (hk : k < len) :
    exec .writeStep s = .next { s with
      out := lineRegs len (10 * (k + 1)), responses := s.responses ++ [levelResponse .high] } := by
  by_cases hlast : k + 1 = len
  · rw [StepCase.exec_eq (.final (by rw [ho]) (by rwa [ho])) hl, lineRegs_of_le (by omega), ho, hlast]
    rfl
  · rw [StepCase.exec_eq (.again (by rw [ho]) (by rwa [ho])) hl, ho,
      lineRegs_eq_byteRegs (Nat.add_zero _).symm (by omega) (by omega)]
    rfl

/-- 41_transmit.md R119: a bit interval sends its level and is followed by the next one. The bytes sent up to there
are below the capacity. -/
theorem exec_writeStep_lineRegs {s : State} {len n : Nat} (hl : s.live) (ho : s.out = lineRegs len n)
    (hc : min (10 * len) (n + 1) ≤ 10 * s.cfg.outCap) :
    exec .writeStep s = .next { s with
      out := lineRegs len (n + 1), responses := s.responses ++ [levelResponse (lineLevel s.outMem len n)] } := by
  by_cases hn : n < 10 * len
  · have hsplit : n = 10 * (n / 10) + n % 10 := by omega
    have hk : n / 10 < len := by omega
    rw [lineRegs_eq_byteRegs hsplit hk (by omega)] at ho
    rw [lineLevel_eq_byteImage hsplit hk (by omega)]
    by_cases hr : n % 10 < 9
    · rw [lineRegs_eq_byteRegs (n := n + 1) (j := n % 10 + 1) (by omega) hk (by omega)]
      exact exec_writeStep_byteRegs hl ho hr hk (by omega)
    · have h9 : n % 10 = 9 := by omega
      rw [h9] at ho ⊢
      rw [show n + 1 = 10 * (n / 10 + 1) by omega]
      exact exec_writeStep_stopBit hl ho hk
  · rw [lineRegs_of_le (by omega)] at ho
    rw [StepCase.exec_eq (.idle (by rw [ho])) hl, lineLevel, if_neg hn, lineRegs_of_le (by omega), ← ho]
    rfl

/-- The block `n` bit intervals after interval `a` of a message of `len` bytes. -/
def State.sent (s : State) (len a n : Nat) : State :=
  { s with
    out := lineRegs len (a + n)
    responses := s.responses ++ (List.range n).map (fun j => levelResponse (lineLevel s.outMem len (a + j))) }

/-- 41_transmit.md R119: WRITE_STEPs send consecutive bit intervals. -/
theorem execAll_writeSteps_lineRegs {s : State} {len a n : Nat} (hl : s.live) (ho : s.out = lineRegs len a)
    (hc : min (10 * len) (a + n) ≤ 10 * s.cfg.outCap) :
    execAll (writeSteps n) s = .next (s.sent len a n) := by
  induction n with
  | zero => simp [writeSteps, State.sent, ← ho]
  | succ n ih =>
    have hstep : exec .writeStep (s.sent len a n) = .next (s.sent len a (n + 1)) := by
      rw [exec_writeStep_lineRegs (s := s.sent len a n) hl rfl hc]
      simp [State.sent, List.range_succ, Nat.add_assoc]
    exact execAll_writeSteps_succ (ih (by omega)) hstep

/-! ### The line image -/

theorem lineImage_length (p : List Byte) : (lineImage p).length = 10 * p.length := by
  induction p with
  | nil => rfl
  | cons b p ih =>
    rw [lineImage, List.flatMap_cons, List.length_append, ← lineImage, ih, List.length_cons]
    simp only [byteImage, List.length_cons, List.length_nil]
    omega

/-- Level `n` of a line image is level `n mod 10` of its byte `n / 10`. -/
theorem lineImage_getD {p : List Byte} {n : Nat} (hn : n < 10 * p.length) :
    (lineImage p).getD n .high = (byteImage (p.getD (n / 10) 0)).getD (n % 10) .high := by
  induction p generalizing n with
  | nil => simp at hn
  | cons b p ih =>
    have hlen : (byteImage b).length = 10 := rfl
    rw [List.length_cons] at hn
    rw [lineImage, List.flatMap_cons, ← lineImage]
    by_cases h10 : n < 10
    · rw [List.getD_append _ _ _ _ (hlen ▸ h10), Nat.div_eq_of_lt h10, Nat.mod_eq_of_lt h10, List.getD_cons_zero]
    · rw [List.getD_append_right _ _ _ _ (by omega), hlen, ih (by omega), show n / 10 = (n - 10) / 10 + 1 by omega,
        List.getD_cons_succ, show (n - 10) % 10 = n % 10 by omega]

/-- A memory that holds a message sends its line image. -/
theorem lineLevel_eq {m : Memory} {p : List Byte} (hm : ∀ a, a < p.length → m.read a = p.getD a 0) (n : Nat) :
    lineLevel m p.length n = (lineImage p).getD n .high := by
  unfold lineLevel
  split_ifs with hn
  · rw [lineImage_getD hn, hm _ (by omega)]
  · rw [List.getD_eq_default _ _ (by rw [lineImage_length]; omega)]

/-- The first `n` entries of a list that is continued with one value. -/
theorem map_getD_range {α : Type} (l : List α) (d : α) (n : Nat) :
    (List.range n).map (fun j => l.getD j d) = l.take n ++ List.replicate (n - l.length) d := by
  refine List.ext_getElem (by simp; omega) fun j h1 h2 => ?_
  rw [List.getElem_map, List.getElem_range, List.getElem_append]
  split_ifs with hj
  · rw [List.getElem_take, List.getD_eq_getElem]
  · simp only [List.length_map, List.length_range, List.length_take] at h1 hj
    rw [List.getElem_replicate, List.getD_eq_default _ _ (by omega)]

/-- 41_transmit.md R119 and R120: the responses of the first `n` WRITE_STEPs of a message. -/
theorem State.sent_responses {s : State} {p : List Byte} (hm : ∀ a, a < p.length → s.outMem.read a = p.getD a 0)
    (n : Nat) : (s.sent p.length 0 n).responses =
      s.responses ++ ((lineImage p).take n).map levelResponse ++ List.replicate (n - 10 * p.length) ⟨1#4, 0⟩ := by
  have hlevels := congrArg (List.map levelResponse) (map_getD_range (lineImage p) .high n)
  rw [List.map_map, List.map_append, List.map_replicate, lineImage_length] at hlevels
  simp only [State.sent, Nat.zero_add, lineLevel_eq hm, List.append_assoc]
  exact congrArg (s.responses ++ ·) hlevels

theorem State.sent_busy_iff {s : State} {len a n : Nat} : (s.sent len a n).busy = true ↔ a + n < 10 * len := by
  rw [State.busy_iff, State.sent, ne_eq, lineRegs_mode_eq_done_iff, not_le]

end Sys2Proof.Machine
end

section
/-! The obligations of 41_transmit.md, assembled from the rules above. -/

namespace Sys2Proof.Machine

/-- Settles O20: the enqueue leaves the registers of bit interval 0 and the message in memory, and each WRITE_STEP
sends one bit interval. -/
theorem messageGoesOutAsItsLineImage : Obligations.MessageGoesOutAsItsLineImage := by
  intro p s hl hw hm hp hcap
  have hmem : ∀ a, a < p.length → (s.outMem.writeSeq 0 p).read a = p.getD a 0 := fun a ha => by
    rw [Memory.read_writeSeq_zero hw, if_pos ha]
  have hstart : (⟨.startBit, 0, 1#8, p.length⟩ : TxState) = lineRegs p.length 0 := (if_pos (by omega)).symm
  refine ⟨_, (EnqCase.ok hm hcap).exec_eq hl, fun n hn => ?_, fun n hn => ?_⟩
  · refine ⟨_, execAll_writeSteps_lineRegs hl hstart (by dsimp only; omega), State.sent_busy_iff.2 (by omega), ?_⟩
    rw [State.sent_responses hmem, Nat.sub_eq_zero_of_le (by omega), List.replicate_zero, List.append_nil]
  · refine ⟨_, execAll_writeSteps_lineRegs hl hstart (by dsimp only; omega),
      Bool.eq_false_iff.2 (mt State.sent_busy_iff.1 (by omega)), ?_⟩
    rw [State.sent_responses hmem, List.take_of_length_le (by rwa [lineImage_length])]

/-- Settles O12: each clause is a case of R110; after the empty message the start bit leads to `Bits` with the byte
index at the length. -/
theorem enqueueOutcomes : Obligations.EnqueueOutcomes := by
  refine ⟨fun p s hl hm => (EnqCase.busy hm).exec_eq hl, fun p s hl hm hp => (EnqCase.large hm hp).exec_eq hl,
    fun p s hl hw hm hp => ?_, fun _ _ => rfl, fun s hl hm => ?_⟩
  · exact ⟨_, _, (EnqCase.ok hm hp).exec_eq hl, rfl, rfl, Memory.read_writeSeq_zero hw p⟩
  · exact ⟨_, _, _, (EnqCase.ok hm (Nat.zero_le _)).exec_eq hl, StepCase.exec_eq (.start rfl) hl, rfl,
      exec_writeStep_empty hl rfl le_rfl, rfl⟩

/-- Settles O13: one step is R112's case, and several are an induction on their number. -/
theorem idleStepsDriveHigh : Obligations.IdleStepsDriveHigh :=
  fun _ hl hm => ⟨StepCase.exec_eq (.idle hm) hl, execAll_writeSteps_done hl hm⟩

/-- Settles O15: the single step is a case of R114 or R116, and the eight are bit intervals 1 to 8 of the byte. -/
theorem dataBitSteps : Obligations.DataBitSteps := by
  refine ⟨fun s hl hm hle => exec_writeStep_empty hl hm hle, fun s hi hm hle => ?_,
    fun s hl hm hlt hc => (StepCase.data hm hlt hc).exec_eq hl, fun s hl hm hlt hc hmask => ?_⟩
  · obtain ⟨-, htx, -⟩ := hi
    obtain ⟨-, hile, -, -, hbits, -⟩ := State.txInv_iff.1 htx
    have hempty := hbits (.inr hm)
    omega
  · have hfirst : s.out = lineRegs s.out.len (10 * s.out.i + 1) :=
      calc s.out = ⟨.bits, s.out.i, 1#8, s.out.len⟩ := by rw [← hm, ← hmask]
        _ = lineRegs s.out.len (10 * s.out.i + 1) := (lineRegs_eq_byteRegs (j := 1) rfl hlt (by omega)).symm
    rw [execAll_writeSteps_lineRegs hl hfirst (by omega), State.sent,
      lineRegs_eq_byteRegs (j := 9) (by omega) hlt (by omega)]
    congr 3
    refine List.map_congr_left fun j hj => ?_
    have hj : j < 8 := List.mem_range.1 hj
    rw [lineLevel_eq_byteImage (j := j + 1) (by omega) hlt (by omega), byteImage_data _ hj, levelResponse_levelOfBool]

/-- Settles O14: R113's case, and R38's clause for the mode. -/
theorem startBitDrivesLow : Obligations.StartBitDrivesLow := by
  refine ⟨fun s hl hm => StepCase.exec_eq (.start hm) hl, fun s ⟨_, htx, _⟩ hm => ?_⟩
  obtain ⟨-, -, -, hmask, -⟩ := State.txInv_iff.1 htx
  exact hmask hm

/-- Settles O16: the two cases of R115. -/
theorem stopBitSteps : Obligations.StopBitSteps :=
  fun _ hl hm =>
    ⟨fun hi => ⟨_, StepCase.exec_eq (.final hm hi) hl, rfl⟩, fun hi => StepCase.exec_eq (.again hm hi) hl⟩

/-- Settles O17: the response is the flag's code; the command byte is the command's encoding. -/
theorem busyReportsMode : Obligations.BusyReportsMode := by
  refine ⟨fun s hl => ?_, fun idxW r => decode_encode (i := .writeBusy) rfl r⟩
  rw [← boolCode_busy]
  exact exec_of_live hl .writeBusy

/-- Settles O19: WRITE_ABORT leaves the mode `Done` on a block that is still live, so the next step is R112's. -/
theorem abortReturnsToIdle : Obligations.AbortReturnsToIdle :=
  fun _ hl => ⟨_, exec_of_live hl .writeAbort, rfl, rfl, rfl, StepCase.exec_eq (.idle rfl) hl⟩

end Sys2Proof.Machine
end

section
/-! SUPPORT. The receive engine: what READ_SINK does in each case of its rule (42_receive.md R141 to R149), and the
block after some data samples of a byte (R147) and after the line image of a message (R152). -/

namespace Sys2Proof.Machine

/-! ### A case of its rule says what READ_SINK does -/

theorem startBitCase_low_full {s : State} (hc : s.cfg.inCap ≤ s.inp.i) :
    startBitCase .low s = s.inpDone.respond 3#4 0 :=
  if_pos hc

theorem startBitCase_low_room {s : State} (hc : s.inp.i < s.cfg.inCap) :
    startBitCase .low s = (s.setInp ⟨.bits, s.inp.i, 1#8⟩).respond 0#4 0 :=
  if_neg (Nat.not_le_of_lt hc)

theorem startBitCase_high_message {s : State} (hi : 1 ≤ s.inp.i) :
    startBitCase .high s = (s.complete s.inp.i).inpDone.respond 1#4 s.inp.i :=
  if_pos hi

theorem startBitCase_high_noByte {s : State} (hi : s.inp.i = 0) : startBitCase .high s = s.respond 0#4 0 :=
  if_neg (by omega)

theorem takeDataBit_in {b : Level} {s : State} (hc : b = .high → s.inp.i < s.cfg.inCap) :
    takeDataBit b s = ((s.setMem .inp (orMem b s)).setInp (afterSample s.inp)).respond 0#4 0 := by
  cases b with
  | low => rfl
  | high => rw [takeDataBit, orIntoByte_high_in (hc rfl)]; rfl

/-- The cases of READ_SINK do not overlap: a case that holds is the one the command takes. -/
theorem SinkCase.exec_eq {b : Level} {s t : State} (h : SinkCase b s t) (hl : s.live) :
    exec (.readSink b) s = .next t := by
  rw [exec_of_live hl]
  congr 1
  cases h with
  | idle hm hb => simp only [execState, hm, hb]; rfl
  | noRoom hm hb hc =>
    simp only [execState, hm, hb]
    exact (startFrame_eq s).trans (startBitCase_low_full (Nat.le_of_eq hc))
  | start hm hb hc =>
    simp only [execState, hm, hb]
    exact (startFrame_eq s).trans (startBitCase_low_room hc)
  | message hm hb hi => simp only [execState, hm, hb, startBitCase_high_message hi]; rfl
  | noByte hm hb hi => simp only [execState, hm, hb, startBitCase_high_noByte hi]; rfl
  | full hm hb hc => simp only [execState, hm, hb, startBitCase_low_full hc]; rfl
  | nextByte hm hb hc => simp only [execState, hm, hb, startBitCase_low_room hc]; rfl
  | range hm hb hc => rw [execState_readSink_bits hm, hb, takeDataBit_high_out_of_range hc]
  | data hm hc => rw [execState_readSink_bits hm, takeDataBit_in hc, ← hm]; rfl
  | goodStop hm hb => simp only [execState, hm, hb]; rfl
  | badStop hm hb => simp only [execState, hm, hb]; rfl

/-! ### The buffer -/

/-- 42_receive.md R142: the clear covers the declared capacity, and nothing past it. -/
theorem read_cleared {s : State} (hw : s.inMem.wf = true) (a : Nat) :
    (cleared s).read a = if a < s.cfg.inCap then 0 else s.inMem.read a := by
  split_ifs with ha
  · rw [cleared, Memory.read_writeSeq_zero hw, List.length_replicate, if_pos ha, List.getD_replicate _ ha]
  · exact read_cleared_of_le hw (Nat.le_of_not_lt ha)

/-- 42_receive.md R147: the current byte after a sample, and every other byte. -/
theorem read_orMem {b : Level} {s : State} (hw : s.inMem.wf = true) (a : Nat) :
    (orMem b s).read a = if a = s.inp.i ∧ b = .high then s.inMem.read a ||| s.inp.mask else s.inMem.read a := by
  by_cases ha : a = s.inp.i
  · cases b with
    | low => simp [orMem]
    | high => simp [orMem, Memory.read_write hw, ha]
  · rw [read_orMem_of_ne hw ha, if_neg (mt And.left ha)]

theorem Memory.write_write {m : Memory} (hw : m.wf = true) (a : Nat) (v w : Byte) :
    (m.write a v).write a w = m.write a w := by
  have hv := Memory.write_wf hw a v
  refine Memory.ext_of_read (Memory.write_wf hv a w) (Memory.write_wf hw a w) fun x => ?_
  rw [Memory.read_write hv, Memory.read_write hw, Memory.read_write hw]
  split_ifs <;> rfl

theorem Memory.write_read_self {m : Memory} (hw : m.wf = true) (a : Nat) : m.write a (m.read a) = m := by
  refine Memory.ext_of_read (Memory.write_wf hw a _) hw fun x => ?_
  rw [Memory.read_write hw]
  split_ifs with hx
  · rw [hx]
  · rfl

/-! ### Several READ_SINKs -/

theorem readSinks_append (l r : List Level) : readSinks (l ++ r) = readSinks l ++ readSinks r :=
  List.map_append

/-- One sample before the others. -/
theorem execAll_readSinks_cons {b : Level} {l : List Level} {s t : State} (h : exec (.readSink b) s = .next t) :
    execAll (readSinks (b :: l)) s = execAll (readSinks l) t :=
  execAll_cons h

/-- One sample after the others. -/
theorem execAll_readSinks_concat {b : Level} {l : List Level} {s t u : State}
    (h : execAll (readSinks l) s = .next t) (hb : exec (.readSink b) t = .next u) :
    execAll (readSinks (l ++ [b])) s = .next u := by
  rw [readSinks_append, execAll_append h]
  exact (execAll_readSinks_cons hb).trans (execAll_nil u)

/-! ### The data samples of a byte -/

/-- The first `n` data bits of a byte, the others 0. -/
def lowBits (v : Byte) (n : Nat) : Byte := (v.setWidth n).setWidth 8

theorem lowBits_zero (v : Byte) : lowBits v 0 = 0 :=
  BitVec.eq_of_toNat_eq (by simp [lowBits, Nat.mod_one])

theorem lowBits_eight (v : Byte) : lowBits v 8 = v := by
  simp [lowBits]

theorem lowBits_succ (v : Byte) (n : Nat) :
    lowBits v (n + 1) = if v.getLsbD n then lowBits v n ||| BitVec.twoPow 8 n else lowBits v n := by
  split_ifs with hb
  · exact BitVec.setWidth_setWidth_succ_eq_setWidth_setWidth_or_twoPow_of_getLsbD_true hb
  · exact BitVec.setWidth_setWidth_succ_eq_setWidth_setWidth_of_getLsbD_false (Bool.eq_false_iff.2 hb)

/-- The registers after `n` data samples of byte `i` (42_receive.md R147): the mask is back at position 0 after
eight. -/
def sampleRegs (i n : Nat) : RxState :=
  if n < 8 then ⟨.bits, i, BitVec.twoPow 8 n⟩ else ⟨.stopBit, i, 1#8⟩

/-- The block after the first `n` data samples of a byte, from mask 0x01. -/
def State.sampled (s : State) (v : Byte) (n : Nat) : State :=
  { s with
    inp := sampleRegs s.inp.i n
    inMem := s.inMem.write s.inp.i (s.inMem.read s.inp.i ||| lowBits v n)
    responses := s.responses ++ List.replicate n ⟨0#4, 0⟩ }

theorem State.sampled_zero {s : State} (hw : s.inMem.wf = true) (hr : s.inp = ⟨.bits, s.inp.i, 1#8⟩) (v : Byte) :
    s.sampled v 0 = s := by
  have hregs : sampleRegs s.inp.i 0 = s.inp := hr.symm
  simp [State.sampled, hregs, lowBits_zero, Memory.write_read_self hw]

theorem State.sampled_eight (s : State) (v : Byte) : s.sampled v 8 = { s with
    inp := ⟨.stopBit, s.inp.i, 1#8⟩
    inMem := s.inMem.write s.inp.i (s.inMem.read s.inp.i ||| v)
    responses := s.responses ++ List.replicate 8 ⟨0#4, 0⟩ } := by
  simp [State.sampled, lowBits_eight, sampleRegs]

/-- 42_receive.md R147: the mask rotates one position, and past position 7 the stop bit follows. -/
theorem sampleRegs_after_sample (i : Nat) {n : Nat} (hn : n < 8) :
    ⟨if BitVec.twoPow 8 n = 0x80#8 then .stopBit else .bits, i,
      (BitVec.twoPow 8 n <<< 1) ||| (BitVec.twoPow 8 n >>> 7)⟩ = sampleRegs i (n + 1) := by
  interval_cases n <;> rfl

/-- A data sample adds its bit to the ones before it. -/
theorem orMem_sampled {s : State} {v : Byte} {n : Nat} (hw : s.inMem.wf = true) (hn : n < 8) :
    orMem (levelOfBool (v.getLsbD n)) (s.sampled v n) = (s.sampled v (n + 1)).inMem := by
  cases hb : v.getLsbD n with
  | false => simp [State.sampled, lowBits_succ, hb, levelOfBool, orMem]
  | true =>
    simp [State.sampled, lowBits_succ, hb, levelOfBool, orMem, sampleRegs, hn, Memory.read_write hw,
      Memory.write_write hw, BitVec.or_assoc]

/-- 42_receive.md R147: data sample `n` of a byte. -/
theorem exec_readSink_sampled {s : State} {v : Byte} {n : Nat} (hl : s.live) (hw : s.inMem.wf = true)
    (hc : s.inp.i < s.cfg.inCap) (hn : n < 8) :
    exec (.readSink (levelOfBool (v.getLsbD n))) (s.sampled v n) = .next (s.sampled v (n + 1)) := by
  have hregs : (s.sampled v n).inp = ⟨.bits, s.inp.i, BitVec.twoPow 8 n⟩ := if_pos hn
  rw [SinkCase.exec_eq (s := s.sampled v n) (.data (by rw [hregs]) fun _ => by rwa [hregs]) hl,
    orMem_sampled hw hn, hregs, sampleRegs_after_sample _ hn]
  simp [State.sampled, List.replicate_succ']

/-- 42_receive.md R147: data samples from mask 0x01 collect the byte, least significant bit first. -/
theorem execAll_dataSamples {s : State} (hl : s.live) (hw : s.inMem.wf = true)
    (hr : s.inp = ⟨.bits, s.inp.i, 1#8⟩) (hc : s.inp.i < s.cfg.inCap) (v : Byte) {n : Nat} (hn : n ≤ 8) :
    execAll (readSinks ((List.range n).map fun j => levelOfBool (v.getLsbD j))) s = .next (s.sampled v n) := by
  induction n with
  | zero =>
    rw [State.sampled_zero hw hr]
    rfl
  | succ n ih =>
    rw [List.range_succ, List.map_append]
    exact execAll_readSinks_concat (ih (by omega)) (exec_readSink_sampled hl hw hc hn)

/-! ### The line image of a message -/

/-- The block after the line image of `p`, from `StartBit` (42_receive.md R146 to R148). -/
def State.received (s : State) (p : List Byte) : State :=
  { s with
    inp := ⟨.startBit, s.inp.i + p.length, 1#8⟩
    inMem := s.inMem.writeSeq s.inp.i p
    responses := s.responses ++ List.replicate (10 * p.length) ⟨0#4, 0⟩ }

theorem State.received_nil {s : State} (hr : s.inp = ⟨.startBit, s.inp.i, 1#8⟩) : s.received [] = s := by
  simp [State.received, Memory.writeSeq, ← hr]

/-- Receiving one byte and then the rest of a message is receiving the message. -/
theorem State.received_received (s : State) (v : Byte) (p : List Byte) :
    (s.received [v]).received p = s.received (v :: p) := by
  have hi : s.inp.i + 1 + p.length = s.inp.i + (p.length + 1) := by omega
  have hn : 10 * (0 + 1) + 10 * p.length = 10 * (p.length + 1) := by omega
  simp only [State.received, List.length_cons, List.length_nil, Memory.writeSeq, List.append_assoc,
    List.replicate_append_replicate, hn, Nat.zero_add, hi]

theorem byteImage_eq (v : Byte) :
    byteImage v = .low :: ((List.range 8).map (fun j => levelOfBool (v.getLsbD j)) ++ [.high]) := rfl

/-- One byte's ten levels put it into a cleared byte of the buffer and count it. -/
theorem execAll_byteImage {s : State} (hl : s.live) (hw : s.inMem.wf = true) (hm : s.inp.mode = .startBit)
    (hc : s.inp.i < s.cfg.inCap) (hz : s.inMem.read s.inp.i = 0) (v : Byte) :
    execAll (readSinks (byteImage v)) s = .next (s.received [v]) := by
  rw [byteImage_eq, execAll_readSinks_cons (SinkCase.exec_eq (.nextByte hm rfl hc) hl)]
  refine execAll_readSinks_concat (execAll_dataSamples (by exact hl) (by exact hw) (by rfl) (by exact hc) v le_rfl) ?_
  rw [State.sampled_eight, SinkCase.exec_eq (.goodStop rfl rfl) (by exact hl)]
  simp [State.received, hz, Memory.writeSeq, List.replicate_succ]

/-- 42_receive.md R152: a line image is received, byte after byte, into a cleared part of the buffer. -/
theorem execAll_lineImage {p : List Byte} {s : State} (hl : s.live) (hw : s.inMem.wf = true)
    (hr : s.inp = ⟨.startBit, s.inp.i, 1#8⟩) (hc : s.inp.i + p.length ≤ s.cfg.inCap)
    (hz : ∀ a, s.inp.i ≤ a → a < s.cfg.inCap → s.inMem.read a = 0) :
    execAll (readSinks (lineImage p)) s = .next (s.received p) := by
  induction p generalizing s with
  | nil =>
    rw [State.received_nil hr]
    rfl
  | cons v p ih =>
    rw [List.length_cons] at hc
    rw [lineImage, List.flatMap_cons, readSinks_append,
      execAll_append (execAll_byteImage hl hw (by rw [hr]) (by omega) (hz _ le_rfl (by omega)) v)]
    have hroom : (s.received [v]).inp.i + p.length ≤ s.cfg.inCap := by
      simp only [State.received, List.length_singleton]
      omega
    have hzero : ∀ a, s.inp.i + 1 ≤ a → a < s.cfg.inCap → (s.received [v]).inMem.read a = 0 := by
      intro a ha hac
      rw [State.received, Memory.read_writeSeq hw, if_neg (by simp; omega), hz a (by omega) hac]
    rw [← State.received_received s v p]
    exact ih (s := s.received [v]) hl (Memory.writeSeq_wf hw _ _) rfl hroom hzero

/-- The block in `StartBit` before byte 0 of a cleared buffer. -/
def State.framed (s : State) : State := { s with inp := ⟨.startBit, 0, 1#8⟩, inMem := cleared s }

/-- 42_receive.md R142: in `Done`, the line image of a message is received as from `StartBit` before byte 0 of a
cleared buffer. -/
theorem execAll_lineImage_done {p : List Byte} {s : State} (hl : s.live) (hm : s.inp.mode = .done)
    (hc : 0 < s.cfg.inCap) (hp : 1 ≤ p.length) :
    execAll (readSinks (lineImage p)) s = execAll (readSinks (lineImage p)) s.framed := by
  cases p with
  | nil => simp at hp
  | cons v p =>
    rw [lineImage, List.flatMap_cons, byteImage_eq, List.cons_append]
    exact (execAll_readSinks_cons (SinkCase.exec_eq (.start hm rfl hc) hl)).trans
      (execAll_readSinks_cons (SinkCase.exec_eq (s := s.framed) (.nextByte rfl rfl hc) hl)).symm

end Sys2Proof.Machine
end

section
/-! The obligations of 42_receive.md, assembled from the rules above. -/

namespace Sys2Proof.Machine

/-- Settles O27: the first start bit clears the buffer, the line image is received from there byte by byte, and the
high level ends the message. -/
theorem lineImageIsReceivedWhole : Obligations.LineImageIsReceivedWhole := by
  intro p s hl hw hm hp hcap
  have hclear : s.framed.inMem.wf = true := Memory.writeSeq_wf hw _ _
  have hroom : s.framed.inp.i + p.length ≤ s.framed.cfg.inCap := (Nat.zero_add _).trans_le hcap
  have hzero : ∀ a, s.framed.inp.i ≤ a → a < s.framed.cfg.inCap → s.framed.inMem.read a = 0 := fun a _ ha =>
    (read_cleared hw a).trans (if_pos ha)
  have hline : execAll (readSinks (lineImage p)) s = .next (s.framed.received p) := by
    rw [execAll_lineImage_done hl hm (by omega) hp, execAll_lineImage (by exact hl) hclear rfl hroom hzero]
  have hcount : (s.framed.received p).inp.i = p.length := Nat.zero_add _
  have hend : exec (.readSink .high) (s.framed.received p) = .next _ :=
    SinkCase.exec_eq (.message rfl rfl (by rwa [hcount])) hl
  rw [hcount] at hend
  refine ⟨_, execAll_readSinks_concat hline hend, rfl, fun k hk => ?_, rfl, rfl, rfl, rfl⟩
  exact (Memory.read_writeSeq_zero hclear p k).trans (if_pos hk)

/-- Settles O22: R142's start, with the two cases of StartBitCase(0). -/
theorem lowSampleStartsFrame : Obligations.LowSampleStartsFrame := by
  intro s hl hw hm
  exact ⟨cleared s, read_cleared hw, fun hc => ⟨_, SinkCase.exec_eq (.noRoom hm rfl hc) hl, rfl⟩,
    fun hc => SinkCase.exec_eq (.start hm rfl hc) hl⟩

/-- Settles O24: the cases of R145 and R146, from `StartBit` and from `Done`; the invariant bounds the byte index. -/
theorem startBitTestsCapacity : Obligations.StartBitTestsCapacity := by
  refine ⟨fun s hl hm hc => ⟨_, SinkCase.exec_eq (.full hm rfl hc) hl, rfl⟩,
    fun s hl hm hc => SinkCase.exec_eq (.nextByte hm rfl hc) hl,
    fun s hl hm hc => ⟨_, SinkCase.exec_eq (.noRoom hm rfl hc) hl, rfl, rfl, rfl, rfl⟩,
    fun s hl hm hc => ⟨_, SinkCase.exec_eq (.start hm rfl hc) hl, rfl, rfl, rfl⟩, fun s hi hc => ?_⟩
  obtain ⟨-, -, hrx, -⟩ := hi
  obtain ⟨hle, -⟩ := State.rxInv_iff.1 hrx
  exact Nat.le_antisymm hle hc

/-- Settles O25: one sample is R147's case, and eight are an induction on their number. -/
theorem dataSamplesAssembleByte : Obligations.DataSamplesAssembleByte := by
  refine ⟨fun b s hl hw hm hc => ?_, fun v s hl hw hm hc hmask => ?_⟩
  · exact ⟨_, orMem b s, SinkCase.exec_eq (.data hm fun _ => hc) hl, rfl, read_orMem hw⟩
  · have hr : s.inp = ⟨.bits, s.inp.i, 1#8⟩ := by rw [← hm, ← hmask]
    refine ⟨_, execAll_dataSamples hl hw hr hc v le_rfl, rfl, rfl, rfl, fun a => ?_⟩
    rw [State.sampled_eight, Memory.read_write hw]
    split_ifs with ha
    · rw [ha]
    · rfl

/-- Settles O21: R141's case. -/
theorem idleSampleChangesNothing : Obligations.IdleSampleChangesNothing :=
  fun _ hl hm => SinkCase.exec_eq (.idle hm rfl) hl

/-- Settles O23: R143's case. -/
theorem highSampleEndsMessage : Obligations.HighSampleEndsMessage :=
  fun _ hl hm hi => ⟨_, SinkCase.exec_eq (.message hm rfl hi) hl, rfl⟩

/-- Settles O26: the cases of R148 and R149; neither writes memory. -/
theorem stopBitSampleJudgesByte : Obligations.StopBitSampleJudgesByte :=
  ⟨fun _ hl hm => ⟨_, SinkCase.exec_eq (.goodStop hm rfl) hl, rfl⟩,
    fun _ hl hm => ⟨_, SinkCase.exec_eq (.badStop hm rfl) hl, rfl, fun _ _ => rfl⟩⟩

end Sys2Proof.Machine
end

section
/-! SUPPORT. The exceptions (60_exceptions.md): what raises a model fault (R208), the command byte that is refused
(R209), and the end of a run (R223). -/

namespace Sys2Proof.Machine

/-! ### What raises a model fault -/

/-- 41_transmit.md R116 and 20_memory.md R56: the commands and states that raise a fault of kind `k`. -/
def FaultCause (i : Instr) (s : State) (k : FaultKind) : Prop :=
  (k = .txEmptyMessage ∧ i = .writeStep ∧ s.out.mode = .bits ∧ s.out.len ≤ s.out.i) ∨
  (k = .memRange ∧ i = .writeStep ∧ s.out.mode = .bits ∧ s.out.i < s.out.len ∧ s.cfg.outCap ≤ s.out.i) ∨
  (k = .memRange ∧ i = .readSink .high ∧ s.inp.mode = .bits ∧ s.cfg.inCap ≤ s.inp.i)

/-- What a command does to the fault record: it leaves it, or has a cause to raise a fault and does nothing else. -/
def RaisesOrKeeps (i : Instr) (s t : State) : Prop :=
  t.fault = s.fault ∨ ∃ k, FaultCause i s k ∧ t = s.raise k

theorem StepCase.raisesOrKeeps {s t : State} (h : StepCase s t) : RaisesOrKeeps .writeStep s t := by
  cases h with
  | empty hm hi => exact .inr ⟨_, .inl ⟨rfl, rfl, hm, hi⟩, rfl⟩
  | range hm hi hc => exact .inr ⟨_, .inr (.inl ⟨rfl, rfl, hm, hi, hc⟩), rfl⟩
  | idle | start | data | final | again => exact .inl rfl

theorem SinkCase.raisesOrKeeps {b : Level} {s t : State} (h : SinkCase b s t) : RaisesOrKeeps (.readSink b) s t := by
  cases h with
  | range hm hb hc =>
    subst hb
    exact .inr ⟨_, .inr (.inr ⟨rfl, rfl, hm, hc⟩), rfl⟩
  | idle | noRoom | start | message | noByte | full | nextByte | data | goodStop | badStop => exact .inl rfl

theorem ExecCase.raisesOrKeeps {i : Instr} {s t : State} (h : ExecCase i s t) : RaisesOrKeeps i s t := by
  cases h with
  | init | busy | abort => exact .inl rfl
  | enq h => cases h <;> exact .inl rfl
  | step h => exact h.raisesOrKeeps
  | sink h => exact h.raisesOrKeeps

/-- A command that leaves a fault recorded raised it on a live block. -/
theorem faultCause_of_exec {i : Instr} {s t : State} {k : FaultKind} (h : exec i s = .next t) (hk : t.fault = some k) :
    FaultCause i s k ∧ t = { s with fault := some k } := by
  obtain ⟨⟨-, hf⟩, hcase⟩ := exec_cases h
  obtain heq | ⟨k', hcause, rfl⟩ := hcase.raisesOrKeeps
  · cases hk.symm.trans (heq.trans hf)
  · rw [State.raise_of_none hf] at hk ⊢
    cases hk
    exact ⟨hcause, rfl⟩

/-- 10_state.md R38 and R39 bound the byte index of each engine in `Bits`, so no access is out of range. -/
theorem FaultCause.eq_txEmptyMessage {i : Instr} {s : State} {k : FaultKind} (h : FaultCause i s k) (hi : s.Inv) :
    k = .txEmptyMessage := by
  obtain ⟨-, htx, hrx, -⟩ := hi
  obtain ⟨hk, -⟩ | ⟨-, -, -, hlt, hcap⟩ | ⟨-, -, hm, hcap⟩ := h
  · exact hk
  · obtain ⟨hlen, -⟩ := State.txInv_iff.1 htx
    omega
  · obtain ⟨-, -, -, hbits⟩ := State.rxInv_iff.1 hrx
    have hlt := hbits (.inl hm)
    omega

/-- TX_EMPTY_MESSAGE has R116's cause only. -/
theorem FaultCause.of_txEmptyMessage {i : Instr} {s : State} (h : FaultCause i s .txEmptyMessage) :
    i = .writeStep ∧ s.out.mode = .bits ∧ s.out.len ≤ s.out.i := by
  obtain ⟨-, hc⟩ | ⟨hk, -⟩ | ⟨hk, -⟩ := h
  · exact hc
  · cases hk
  · cases hk

/-! ### The refused command byte -/

/-- An illegal command has a first byte. -/
theorem exists_byte_of_decode_illegal {idxW : Nat} {moves : List HostMove} {why : Illegal}
    (h : decode idxW (leadingBytes moves) = .illegal why) : ∃ b r, moves = .byte b :: r := by
  match moves, h with
  | .byte b :: r, _ => exact ⟨b, r, rfl⟩

/-- 60_exceptions.md R209. -/
theorem stepCommand_of_illegal {s : State} {why : Illegal} (hl : s.live) (h : s.fetch = .illegal why) :
    stepCommand s = .refused (.illegalCommand why s.pos) := by
  rw [stepCommand, h]
  exact operate_live hl.1 hl.2

/-! ### A step that stops as faulted -/

/-- The guard stops an operation as faulted only where a fault is recorded. -/
theorem operate_eq_fault {s : State} {r : Result} {f : Fault} (h : operate s r = .fault f) :
    s.fault ≠ none ∨ r = .fault f := by
  cases hv : s.cfg.valid with
  | false => cases (operate_invalid hv).symm.trans h
  | true =>
    cases hf : s.fault with
    | some k => exact .inl (Option.some_ne_none k)
    | none => exact .inr ((operate_live hv hf).symm.trans h)

theorem withBlock_eq_fault {s : State} {r : Result} {f : Fault} (h : withBlock s r = .fault f) : r = .fault f := by
  unfold withBlock at h
  split_ifs at h
  exact h

theorem fault_ne_none_of_exec_fault {i : Instr} {s : State} {f : Fault} (h : exec i s = .fault f) :
    s.fault ≠ none := by
  rw [exec_eq_operate] at h
  obtain hf | hnext := operate_eq_fault h
  · exact hf
  · cases hnext

theorem fault_ne_none_of_stepCommand_fault {s : State} {f : Fault} (h : stepCommand s = .fault f) :
    s.fault ≠ none := by
  obtain hf | hr := operate_eq_fault h
  · exact hf
  · cases hd : s.fetch with
    | ok i rest => exact fault_ne_none_of_exec_fault (s := s.consume _) ((stepCommand_of_fetch hd).symm.trans h)
    | illegal why => simp [hd] at hr
    | truncated => simp [hd] at hr

theorem hostWrite_ne_fault (sp : Space) (a : Nat) (v : Byte) (rest : List HostMove) (s : State) (f : Fault) :
    hostWrite sp a v rest s ≠ .fault f := by
  intro h
  have hr := withBlock_eq_fault h
  split_ifs at hr

theorem hostRead_ne_fault (sp : Space) (a : Nat) (rest : List HostMove) (s : State) (f : Fault) :
    hostRead sp a rest s ≠ .fault f := by
  intro h
  have hr := withBlock_eq_fault h
  split_ifs at hr

/-- 60_exceptions.md R208: only a recorded model fault stops a step as faulted. -/
theorem fault_ne_none_of_step_fault {s : State} {f : Fault} (h : step s = .fault f) : s.fault ≠ none := by
  cases hh : s.host with
  | nil =>
    rw [step_of_no_move hh] at h
    obtain hf | hnext := operate_eq_fault h
    · exact hf
    · cases hnext
  | cons m rest =>
    cases m with
    | byte b => exact fault_ne_none_of_stepCommand_fault ((step_of_byte hh).symm.trans h)
    | write sp a v => exact absurd ((step_of_write hh).symm.trans h) (hostWrite_ne_fault sp a v rest s f)
    | read sp a => exact absurd ((step_of_read hh).symm.trans h) (hostRead_ne_fault sp a rest s f)

/-! ### A run ends -/

/-- 30_encoding.md R72 to R74: every command has its command byte. -/
theorem encodedLength_pos (idxW : Nat) (i : Instr) : 0 < encodedLength idxW i := by
  cases i with
  | writeEnqueue p => simp only [encodedLength]; omega
  | init | writeBusy | writeAbort | writeStep | readSink => exact Nat.one_pos

/-- A step with a pending move uses up at least that move. -/
theorem step_host_length_lt {s t : State} (h : step s = .next t) (hne : s.host ≠ []) :
    t.host.length < s.host.length := by
  obtain ⟨-, hw | hr | hidle | hcmd⟩ := step_cases h
  · obtain ⟨sp, a, v, rest, hh, -, rfl⟩ := hw
    simp [hh]
  · obtain ⟨sp, a, rest, hh, -, rfl⟩ := hr
    simp [hh]
  · obtain ⟨hnil, -⟩ := hidle
    exact absurd hnil hne
  · obtain ⟨i, rest, -, -, he⟩ := hcmd
    obtain ⟨-, hhost, -⟩ := (exec_cases he).2.host_frame
    have hpos := List.length_pos_iff.2 hne
    have htaken := encodedLength_pos s.cfg.idxW i
    rw [hhost, State.consume_host, List.length_drop]
    omega

/-- 60_exceptions.md R223: the run has ended, as final with no move left, faulted or ill-formed. -/
def RunEnd.Ended (e : RunEnd) : Prop :=
  (∃ t, e = .final t ∧ t.host = [] ∧ t.fault = none) ∨ (∃ t, e = .faulted t ∧ t.fault ≠ none) ∨
    ∃ r, e = .illFormed r

theorem runMoves_of_no_move {s : State} (h : s.host = []) (n : Nat) :
    runMoves n s = if s.fault = none then .final s else .faulted s := by
  unfold runMoves
  rw [h]
  cases s.fault <;> rfl

/-- One step of a run with a move pending. -/
def runStep (n : Nat) (s : State) : Host.Outcome State Fault Refusal → RunEnd
  | .next t => runMoves n t
  | .fault _ => .faulted s
  | .refused r => .illFormed r

theorem runMoves_succ_of_move {s : State} (h : s.host ≠ []) (n : Nat) :
    runMoves (n + 1) s = runStep n s (step s) := by
  obtain ⟨m, rest, hh⟩ := List.exists_cons_of_ne_nil h
  rw [runMoves, hh]
  cases step s <;> rfl

theorem runMoves_ended_of_no_move {s : State} (h : s.host = []) (n : Nat) : (runMoves n s).Ended := by
  rw [runMoves_of_no_move h]
  split_ifs with hf
  · exact .inl ⟨s, rfl, h, hf⟩
  · exact .inr (.inl ⟨s, rfl, hf⟩)

/-- As many steps as there are pending moves end the run, since each uses up a move. -/
theorem runMoves_ended {n : Nat} {s : State} (hn : s.host.length ≤ n) : (runMoves n s).Ended := by
  induction n generalizing s with
  | zero => exact runMoves_ended_of_no_move (List.length_eq_zero_iff.1 (Nat.le_zero.1 hn)) 0
  | succ n ih =>
    by_cases hh : s.host = []
    · exact runMoves_ended_of_no_move hh (n + 1)
    · rw [runMoves_succ_of_move hh]
      cases hs : step s with
      | next t =>
        have hlt := step_host_length_lt hs hh
        exact ih (by omega)
      | fault f => exact .inr (.inl ⟨s, rfl, fault_ne_none_of_step_fault hs⟩)
      | refused r => exact .inr (.inr ⟨r, rfl⟩)

end Sys2Proof.Machine
end

section
/-! The obligations of 60_exceptions.md, assembled from the rules above. -/

namespace Sys2Proof.Machine

/-- Settles O38: a command that leaves a fault recorded had a cause to raise it, and the invariant leaves R116's. -/
theorem faultsAreRaisedOnlyThere : Obligations.FaultsAreRaisedOnlyThere := by
  intro i s t k h hk
  obtain ⟨hcause, heq⟩ := faultCause_of_exec h hk
  exact ⟨heq, hcause, hcause.eq_txEmptyMessage⟩

/-- Settles O37: the only fault the invariant leaves has the excluded cause, and a command with no fault responds. -/
theorem everyCommandCompletes : Obligations.EveryCommandCompletes := by
  intro i s hl hi hempty
  have h := exec_of_live hl i
  have hf : (execState i s).fault = none := by
    rw [Option.eq_none_iff_forall_ne_some]
    intro k hk
    obtain ⟨hcause, -⟩ := faultCause_of_exec h hk
    obtain rfl := hcause.eq_txEmptyMessage hi
    exact hempty hcause.of_txEmptyMessage
  obtain ⟨-, hresponds⟩ := oneResponsePerCommand i s _ h
  obtain ⟨code, count, hr, -⟩ := hresponds hf
  exact ⟨_, _, h, hf, hr⟩

/-- Settles O42: each step of a run uses up a move, and only a recorded fault stops one as faulted. -/
theorem everyRunEnds : Obligations.EveryRunEnds :=
  fun _ => runMoves_ended le_rfl

/-- Settles O8: the bytes start with a command byte, and a live block's guard lets the refusal through. -/
theorem illegalCommandIsRefused : Obligations.IllegalCommandIsRefused := by
  intro s why hl h
  obtain ⟨b, r, hhost⟩ := exists_byte_of_decode_illegal h
  exact (step_of_byte hhost).trans (stepCommand_of_illegal hl h)

/-- Settles O44: taking a command and the idle step run under the guard that a recorded fault stops. -/
theorem faultedBlockTakesNoCommand : Obligations.FaultedBlockTakesNoCommand :=
  fun _ _ hv hf => ⟨fun _ _ hh => (step_of_byte hh).trans (operate_faulted hv hf),
    fun hh => (step_of_no_move hh).trans (operate_faulted hv hf)⟩

end Sys2Proof.Machine
end

section
/-! SUPPORT. The receive engine on a line that does not change (70_reset_and_hazards.md): the registers after any
samples in `Bits`, whatever the buffer held, ten low samples from `Done` (R261), and how many high samples lead back
to `Done` (R264). -/

namespace Sys2Proof.Machine

/-! ### Any samples in `Bits` -/

/-- The single-bit values are the masks of the eight data samples. -/
theorem exists_twoPow_of_maskLegal {m : Byte} (h : maskLegal m = true) : ∃ k, k < 8 ∧ m = BitVec.twoPow 8 k := by
  revert m
  decide

/-- The block after `n` samples that answered Ok, with the registers and the buffer they left. -/
def State.afterOks (s : State) (r : RxState) (m : Memory) (n : Nat) : State :=
  { s with inp := r, inMem := m, responses := s.responses ++ List.replicate n ⟨0#4, 0⟩ }

theorem State.afterOks_zero (s : State) : s.afterOks s.inp s.inMem 0 = s := by
  simp [State.afterOks]

theorem State.afterOks_afterOks (s : State) (r r' : RxState) (m m' : Memory) (n n' : Nat) :
    (s.afterOks r m n).afterOks r' m' n' = s.afterOks r' m' (n + n') := by
  simp [State.afterOks]

/-- 42_receive.md R147: one sample in `Bits`. -/
theorem exec_bits_sample {b : Level} {s : State} {i k : Nat} (hl : s.live) (hr : s.inp = sampleRegs i k)
    (hc : i < s.cfg.inCap) (hk : k < 8) :
    exec (.readSink b) s = .next (s.afterOks (sampleRegs i (k + 1)) (orMem b s) 1) := by
  have hregs : s.inp = ⟨.bits, i, BitVec.twoPow 8 k⟩ := hr.trans (if_pos hk)
  rw [SinkCase.exec_eq (.data (by rw [hregs]) fun _ => by rwa [hregs]) hl, hregs, sampleRegs_after_sample i hk]
  rfl

/-- 42_receive.md R147: samples in `Bits` advance the mask cursor whatever their levels are, and each answers Ok. -/
theorem execAll_bits_samples {l : List Level} {s : State} {i k : Nat} (hl : s.live) (hr : s.inp = sampleRegs i k)
    (hc : i < s.cfg.inCap) (hk : k + l.length ≤ 8) :
    ∃ m, execAll (readSinks l) s = .next (s.afterOks (sampleRegs i (k + l.length)) m l.length) := by
  induction l generalizing s k with
  | nil =>
    have hnone := s.afterOks_zero
    rw [hr] at hnone
    exact ⟨s.inMem, congrArg Host.Outcome.next hnone.symm⟩
  | cons b l ih =>
    rw [List.length_cons] at hk ⊢
    obtain ⟨m, hm⟩ := ih (s := s.afterOks (sampleRegs i (k + 1)) (orMem b s) 1) (k := k + 1) hl rfl hc (by omega)
    refine ⟨m, ?_⟩
    rw [execAll_readSinks_cons (exec_bits_sample hl hr hc (by omega)), hm, State.afterOks_afterOks,
      Nat.add_assoc, Nat.add_comm 1]

/-! ### The line held low -/

/-- The block after a frame whose stop bit is low: nine samples answered Ok, and the tenth ErrorBadMessage. -/
def State.afterBadFrame (s : State) (m : Memory) : State :=
  (s.afterOks ⟨.done, 0, 1#8⟩ m 9).respond 4#4 0

theorem State.afterBadFrame_responses (s : State) (m : Memory) :
    (s.afterBadFrame m).responses = s.responses ++ (List.replicate 9 ⟨0#4, 0⟩ ++ [⟨4#4, 0⟩]) :=
  List.append_assoc ..

/-- 70_reset_and_hazards.md R261: ten low samples from `Done` are a start bit, eight data bits and a bad stop bit. -/
theorem execAll_ten_low {s : State} (hl : s.live) (hm : s.inp.mode = .done) (hc : 0 < s.cfg.inCap) :
    ∃ m, execAll (readSinks (List.replicate 10 .low)) s = .next (s.afterBadFrame m) := by
  have hstart : exec (.readSink .low) s = .next (s.afterOks ⟨.bits, 0, 1#8⟩ (cleared s) 1) :=
    SinkCase.exec_eq (.start hm rfl hc) hl
  obtain ⟨m, hdata⟩ := execAll_bits_samples (l := List.replicate 8 .low)
    (s := s.afterOks ⟨.bits, 0, 1#8⟩ (cleared s) 1) (k := 0) hl rfl hc le_rfl
  rw [State.afterOks_afterOks] at hdata
  exact ⟨m, (execAll_readSinks_cons hstart).trans
    (execAll_readSinks_concat hdata (SinkCase.exec_eq (.badStop rfl rfl) hl))⟩

/-! ### The idle line -/

/-- `n` high samples complete and leave the receiver in `Done`. -/
def State.DoneAfterHigh (s : State) (n : Nat) : Prop :=
  ∃ t, execAll (readSinks (List.replicate n .high)) s = .next t ∧ t.inp.mode = .done

/-- 42_receive.md R143: from `StartBit` one high sample ends the message. -/
theorem doneAfterHigh_startBit {s : State} (hl : s.live) (hm : s.inp.mode = .startBit) (hi : 1 ≤ s.inp.i) :
    s.DoneAfterHigh 1 :=
  ⟨_, execAll_readSinks_cons (SinkCase.exec_eq (.message hm rfl hi) hl), rfl⟩

/-- 42_receive.md R148: from `StopBit` a high sample counts the byte and leads to `StartBit`. -/
theorem doneAfterHigh_stopBit {s : State} (hl : s.live) (hm : s.inp.mode = .stopBit) : s.DoneAfterHigh 2 := by
  obtain ⟨t, ht, hdone⟩ := doneAfterHigh_startBit
    (s := s.afterOks { s.inp with mode := .startBit, i := s.inp.i + 1 } s.inMem 1) hl rfl (Nat.le_add_left ..)
  exact ⟨t, (execAll_readSinks_cons (SinkCase.exec_eq (.goodStop hm rfl) hl)).trans ht, hdone⟩

/-- 42_receive.md R147: from `Bits` the data samples that the mask leaves lead to `StopBit`. -/
theorem doneAfterHigh_bits {s : State} {k : Nat} (hl : s.live)
    (hr : s.inp = ⟨.bits, s.inp.i, BitVec.twoPow 8 k⟩) (hc : s.inp.i < s.cfg.inCap) (hk : k < 8) :
    s.DoneAfterHigh (8 - k + 2) := by
  obtain ⟨m, hdata⟩ := execAll_bits_samples (l := List.replicate (8 - k) .high) (k := k) hl
    (hr.trans (if_pos hk).symm) hc (by rw [List.length_replicate, Nat.add_sub_of_le hk.le])
  rw [List.length_replicate, Nat.add_sub_of_le hk.le] at hdata
  obtain ⟨t, ht, hdone⟩ := doneAfterHigh_stopBit (s := s.afterOks (sampleRegs s.inp.i 8) m (8 - k)) hl rfl
  refine ⟨t, ?_, hdone⟩
  rw [List.replicate_add, readSinks_append, execAll_append hdata, ht]

end Sys2Proof.Machine
end

section
/-! The obligations of 70_reset_and_hazards.md, assembled from the rules above. -/

namespace Sys2Proof.Machine

/-- Settles O28, by induction on the number of tens: ten low samples lead from `Done` to `Done`. -/
theorem lineHeldLowIsBadEveryTen : Obligations.LineHeldLowIsBadEveryTen := by
  intro n
  induction n with
  | zero => exact fun s _ hm _ => ⟨s, rfl, hm, rfl, (List.append_nil _).symm⟩
  | succ n ih =>
    intro s hl hm hc
    obtain ⟨m, hten⟩ := execAll_ten_low hl hm hc
    obtain ⟨t, ht, hdone, hevents, hresp⟩ := ih (s.afterBadFrame m) hl rfl hc
    refine ⟨t, ?_, hdone, hevents, ?_⟩
    · rw [show 10 * (n + 1) = 10 + 10 * n by omega, List.replicate_add, readSinks_append, execAll_append hten, ht]
    · rw [hresp, State.afterBadFrame_responses, List.append_assoc, List.replicate_succ (n := n), List.flatten_cons]

/-- Settles O29, by the mode: the invariant gives `StartBit` a byte, and `Bits` a legal mask and room for its byte. -/
theorem idleLineReturnsReceiverToDone : Obligations.IdleLineReturnsReceiverToDone := by
  intro s hl hinv
  obtain ⟨-, -, hrx, -⟩ := hinv
  obtain ⟨-, hmask, hbyte, hroom⟩ := State.rxInv_iff.1 hrx
  cases hm : s.inp.mode with
  | done => exact ⟨0, s, le_rfl, rfl, hm⟩
  | startBit =>
    obtain ⟨t, ht⟩ := doneAfterHigh_startBit hl hm (hbyte hm)
    exact ⟨1, t, le_rfl, ht⟩
  | bits =>
    obtain ⟨k, hk, hpow⟩ := exists_twoPow_of_maskLegal hmask
    have hregs : s.inp = ⟨.bits, s.inp.i, BitVec.twoPow 8 k⟩ := by rw [← hm, ← hpow]
    obtain ⟨t, ht⟩ := doneAfterHigh_bits hl hregs (hroom (.inl hm)) hk
    exact ⟨8 - k + 2, t, by dsimp only; omega, ht⟩
  | stopBit =>
    obtain ⟨t, ht⟩ := doneAfterHigh_stopBit hl hm
    exact ⟨2, t, le_rfl, ht⟩

/-- Settles O1: power-on's fields are R250's by definition; both engines are then idle (R112, R141), and INIT writes
the same registers (R101). -/
theorem powerOnState : Obligations.PowerOnState := by
  intro cfg om im moves
  refine ⟨rfl, rfl, rfl, rfl, rfl, rfl, rfl, rfl, fun hv => ?_, fun s t h => ?_⟩
  · have hl : (State.powerOn cfg om im moves).live := ⟨hv, rfl⟩
    exact ⟨StepCase.exec_eq (.idle rfl) hl, SinkCase.exec_eq (.idle rfl rfl) hl⟩
  · rw [eq_of_exec_init h]
    exact ⟨rfl, rfl, rfl, rfl, rfl, rfl, rfl⟩

end Sys2Proof.Machine
end

section
/-! SUPPORT. A data sample that records no fault (20_memory.md R56). -/

namespace Sys2Proof.Machine

/-- A high sample with no room for its byte raises `MEM_RANGE`, so one that leaves no fault had room. -/
theorem lt_inCap_of_exec_readSink {b : Level} {s t : State} (h : exec (.readSink b) s = .next t)
    (hm : s.inp.mode = .bits) (hf : t.fault = none) (hb : b = .high) : s.inp.i < s.cfg.inCap := by
  obtain ⟨hl, -⟩ := exec_cases h
  by_contra hc
  have hraise : t = s.raise .memRange :=
    Host.Outcome.next.inj (h.symm.trans (SinkCase.exec_eq (.range hm hb (Nat.le_of_not_lt hc)) hl))
  rw [hraise, State.raise_of_none hl.2] at hf
  cases hf

end Sys2Proof.Machine
end

section
/-! The values that the spec fixes by its own decisions and no response shows (92_eei_decisions.md D13 to D15, D18,
D20), assembled from the rules above. -/

namespace Sys2Proof.Machine

/-- Settles O43: each clause is a case of its command's rule (R115, R118, R147, R144, R149), and a command leaves no
state but the one of its case. -/
theorem decidedHiddenValues : Obligations.DecidedHiddenValues := by
  refine ⟨fun s t hm hi h => ?_, fun s t h => ?_, fun b s t hm hf h => ?_,
    fun s hl hm hi => SinkCase.exec_eq (.noByte hm rfl hi) hl, fun s hl hm => SinkCase.exec_eq (.badStop hm rfl) hl⟩
  · obtain ⟨hl, -⟩ := exec_cases h
    cases h.symm.trans (StepCase.exec_eq (.final hm hi) hl)
    rfl
  · obtain ⟨-, rfl⟩ := exec_eq_next.1 h
    rfl
  · obtain ⟨hl, -⟩ := exec_cases h
    cases h.symm.trans (SinkCase.exec_eq (.data hm (lt_inCap_of_exec_readSink h hm hf)) hl)
    rfl

end Sys2Proof.Machine
end
